-- ==== Sys2Proof/Word.lean ====
section
/-! DEFINITION. The widths TCPHC's values have (00_scope.md R10, R11; 20_memory.md R44): bytes, 16-bit fields and
32-bit fields. Every value is unsigned. -/

namespace Sys2Proof

/-- One byte of the header buffer or of a command packet (00_scope.md R10). -/
abbrev Byte := BitVec 8

/-- A 16-bit field: a port, the window, a checksum, the urgent pointer (20_memory.md R44). -/
abbrev Half := BitVec 16

/-- A 32-bit field: a sequence or acknowledgement number, an IPv4 address (20_memory.md R44, 30_encoding.md R71). -/
abbrev Word := BitVec 32

end Sys2Proof
end

