-- ==== Sys2Proof/Config.lean ====
section
/-! DEFINITION. What is fixed for the machine: the parameters the source fixes (00_scope.md R8) and the two the spec
leaves to the model's user (00_scope.md R9). The two open ones have no value any proof can see. -/

namespace Sys2Proof

/-- HDR_LEN, the bytes of the header buffer (00_scope.md R8). -/
abbrev Config.hdrLen : Nat := 20

/-- DOFF_VALUE, the data offset every encoded header carries (00_scope.md R8). -/
def Config.doffValue : BitVec 4 := 5

/-- WINDOW_VALUE, the receive window every encoded header carries (00_scope.md R8). -/
def Config.windowValue : Half := 0xFFFF

/-- URGPTR_VALUE, the urgent pointer every encoded header carries (00_scope.md R8). -/
def Config.urgptrValue : Half := 0

/-- PROTO, the protocol number in the pseudo-header (00_scope.md R8). -/
def Config.proto : Byte := 6

/-- SEG_LEN, the segment length in the pseudo-header (00_scope.md R8). -/
def Config.segLen : Half := 20

/-- PSEUDO_LEN, the bytes of the pseudo-header (00_scope.md R8). -/
abbrev Config.pseudoLen : Nat := 12

/-- CSUM_BUF_LEN, the bytes of the checksum buffer (00_scope.md R8). -/
abbrev Config.csumBufLen : Nat := 32

/-- FLAG_BITS, the width of the flags field (00_scope.md R8). -/
abbrev Config.flagBits : Nat := 6

/-- How far MAX_DECODE_LEN lies above its least value 20: any natural number, not known to any proof
(00_scope.md R9, decision D19; log entry 7, DESIGN CHOICE). -/
opaque Config.decodeLenAbove20 : Nat

/-- MAX_DECODE_LEN, the most segment bytes one DECODE packet may carry: a natural number, at least 20
(00_scope.md R9; log entry 7, DESIGN CHOICE). -/
def Config.maxDecodeLen : Nat := Config.hdrLen + Config.decodeLenAbove20

/-- How many TCPHC units a system has beyond its first: any natural number (00_scope.md R9, decision D18;
log entry 8, DESIGN CHOICE). -/
opaque Config.furtherUnits : Nat

/-- N_INSTANCES, the number of independent TCPHC units: a natural number, at least 1 (00_scope.md R9;
log entry 8, DESIGN CHOICE). -/
def Config.nUnits : Nat := Config.furtherUnits + 1

end Sys2Proof
end

