-- ==== Sys2Proof/Syntax.lean ====
section
/-! DEFINITION. What HOST can ask of TCPHC, as syntax: the five commands (30_encoding.md R76), the read ports
(10_state.md R27) and the three kinds of step (00_scope.md R7). -/

namespace Sys2Proof

/-- The five commands, the whole command set (30_encoding.md R76, 40_codec.md R99), each with its operands. -/
inductive Instr where
  /-- ENCODE sport, dport, seq, flags (40_codec.md R92). -/
  | encode (sport dport : Half) (seq : Word) (flags : Byte)
  /-- ENCODE_ACK sport, dport, seq, ack, flags (40_codec.md R93). -/
  | encodeAck (sport dport : Half) (seq acknum : Word) (flags : Byte)
  /-- DECODE with its data bytes, DATA[0] first (40_codec.md R96). -/
  | decode (data : List Byte)
  /-- CSUM srcip, dstip (41_checksum.md R122). -/
  | csum (srcip dstip : Word)
  /-- SETCSUM value (40_codec.md R98). -/
  | setcsum (value : Half)
  deriving DecidableEq, Repr

/-- The six TCP flags, bits of byte 13 of the header (30_encoding.md R63). -/
inductive Flag where
  | urg
  | ack
  | psh
  | rst
  | syn
  | fin
  deriving DecidableEq, Repr

/-- The read ports (10_state.md R27). RAW takes an offset 0 to 19, so that no other byte can be named (40_codec.md R115). -/
inductive Port where
  | srcPort
  | dstPort
  | seq
  | acknum
  | doff
  | flags
  /-- F_URG, F_ACK, F_PSH, F_RST, F_SYN and F_FIN. -/
  | flag (f : Flag)
  | window
  | checksum
  | urgptr
  | raw (i : Fin 20)
  | csumOut
  | statusOut
  deriving DecidableEq, Repr

/-- What HOST delivers for one step (00_scope.md R7). -/
inductive Event where
  /-- `Cmd(pkt)`: one command packet, delivered whole (30_encoding.md R75). -/
  | cmd (pkt : List Byte)
  /-- `Reset` (70_reset_and_hazards.md R161). -/
  | reset
  /-- `Read(port)` (10_state.md R27). -/
  | read (p : Port)
  deriving DecidableEq, Repr

end Sys2Proof
end

