-- ==== Sys2Proof/WellFormed.lean ====
section
/-! DEFINITION. Which instructions a packet can carry. The operands' widths are in their types, so the one check left is
the length of a DECODE's data (30_encoding.md R78, R81: every bit pattern of every operand is accepted). -/

namespace Sys2Proof

/-- A DECODE may carry n bytes, 0 <= n <= MAX_DECODE_LEN (30_encoding.md R78). The first test says nothing the second
does not (MAX_DECODE_LEN is at least 20): it lets the kernel evaluate the check for short data without the parameter. -/
def dataLenOk (n : Nat) : Bool := decide (n ≤ Config.hdrLen) || decide (n ≤ Config.maxDecodeLen)

/-- The instruction is one a well-formed packet carries (30_encoding.md R78). -/
def Instr.wf : Instr → Bool
  | .encode _ _ _ _ => true
  | .encodeAck _ _ _ _ _ => true
  | .decode data => dataLenOk data.length
  | .csum _ _ => true
  | .setcsum _ => true

end Sys2Proof
end

