-- ==== Sys2Proof/Decode.lean ====
section
/-! DEFINITION. Command packets: the byte-order helpers (00_scope.md R13), the decoder from a packet to an instruction,
total on any bytes and rejecting by name (30_encoding.md R75 to R81), and the encoder back. -/

namespace Sys2Proof

/-! ## Byte order: most significant byte first, always (20_memory.md R41) -/

/-- `be16`: two bytes as a 16-bit value, the first most significant (00_scope.md R13). -/
def be16 (a b : Byte) : Half := a ++ b

/-- `be32`: four bytes as a 32-bit value, `be16 << 16 | be16` (00_scope.md R13). -/
def be32 (a b c d : Byte) : Word := be16 a b ++ be16 c d

/-- `v[15:8]` (00_scope.md R13). -/
def hiByte (v : Half) : Byte := v.extractLsb' 8 8

/-- `v[7:0]` (00_scope.md R13). -/
def loByte (v : Half) : Byte := v.extractLsb' 0 8

/-- `v[31:16]`. -/
def hiHalf (v : Word) : Half := v.extractLsb' 16 16

/-- `v[15:0]`. -/
def loHalf (v : Word) : Half := v.extractLsb' 0 16

/-- `put16(v) = [v[15:8], v[7:0]]` (00_scope.md R13). -/
def put16 (v : Half) : List Byte := [hiByte v, loByte v]

/-- `put32(v) = [v[31:24], v[23:16], v[15:8], v[7:0]]` (00_scope.md R13). -/
def put32 (v : Word) : List Byte := put16 (hiHalf v) ++ put16 (loHalf v)

/-! ## Opcodes (30_encoding.md R76) -/

/-- Opcode of ENCODE. -/
def opEncode : Byte := 0x01

/-- Opcode of ENCODE_ACK. -/
def opEncodeAck : Byte := 0x02

/-- Opcode of DECODE. -/
def opDecode : Byte := 0x03

/-- Opcode of CSUM. -/
def opCsum : Byte := 0x04

/-- Opcode of SETCSUM. -/
def opSetcsum : Byte := 0x05

/-! ## From a packet to an instruction -/

/-- Why a packet is no command (30_encoding.md R79, 60_exceptions.md R141). Each is an ILLEGAL_COMMAND. -/
inductive DecodeError where
  /-- The packet has no byte. -/
  | emptyPacket
  /-- The opcode is not 0x01 to 0x05. -/
  | illegalOpcode (op : Byte)
  /-- A fixed-length command of the wrong length: the length its opcode has and the length delivered. -/
  | wrongLength (want got : Nat)
  /-- A DECODE with more than MAX_DECODE_LEN data bytes. -/
  | dataTooLong (got : Nat)
  deriving DecidableEq, Repr

/-- The operands of an ENCODE packet after its opcode: 9 bytes (30_encoding.md R76). -/
def decodeEncode : List Byte → Except DecodeError Instr
  | [s0, s1, d0, d1, q0, q1, q2, q3, f] => .ok (.encode (be16 s0 s1) (be16 d0 d1) (be32 q0 q1 q2 q3) f)
  | args => .error (.wrongLength 10 (args.length + 1))

/-- The operands of an ENCODE_ACK packet after its opcode: 13 bytes (30_encoding.md R76). -/
def decodeEncodeAck : List Byte → Except DecodeError Instr
  | [s0, s1, d0, d1, q0, q1, q2, q3, a0, a1, a2, a3, f] =>
    .ok (.encodeAck (be16 s0 s1) (be16 d0 d1) (be32 q0 q1 q2 q3) (be32 a0 a1 a2 a3) f)
  | args => .error (.wrongLength 14 (args.length + 1))

/-- The data of a DECODE packet after its opcode: n bytes, n <= MAX_DECODE_LEN (30_encoding.md R76, R78). -/
def decodeDecode (data : List Byte) : Except DecodeError Instr :=
  if dataLenOk data.length then .ok (.decode data) else .error (.dataTooLong data.length)

/-- The operands of a CSUM packet after its opcode: 8 bytes (30_encoding.md R76). -/
def decodeCsum : List Byte → Except DecodeError Instr
  | [s0, s1, s2, s3, d0, d1, d2, d3] => .ok (.csum (be32 s0 s1 s2 s3) (be32 d0 d1 d2 d3))
  | args => .error (.wrongLength 9 (args.length + 1))

/-- The operand of a SETCSUM packet after its opcode: 2 bytes (30_encoding.md R76). -/
def decodeSetcsum : List Byte → Except DecodeError Instr
  | [v0, v1] => .ok (.setcsum (be16 v0 v1))
  | args => .error (.wrongLength 3 (args.length + 1))

/-- The instruction a packet carries, or why it carries none (30_encoding.md R76, R78, R79). -/
def decode : List Byte → Except DecodeError Instr
  | [] => .error .emptyPacket
  | op :: args =>
    if op = opEncode then decodeEncode args
    else if op = opEncodeAck then decodeEncodeAck args
    else if op = opDecode then decodeDecode args
    else if op = opCsum then decodeCsum args
    else if op = opSetcsum then decodeSetcsum args
    else .error (.illegalOpcode op)

/-! ## From an instruction to its packet -/

/-- The packet that carries an instruction (30_encoding.md R76, R77). -/
def encode : Instr → List Byte
  | .encode sport dport seq flags => [opEncode] ++ put16 sport ++ put16 dport ++ put32 seq ++ [flags]
  | .encodeAck sport dport seq acknum flags =>
    [opEncodeAck] ++ put16 sport ++ put16 dport ++ put32 seq ++ put32 acknum ++ [flags]
  | .decode data => [opDecode] ++ data
  | .csum srcip dstip => [opCsum] ++ put32 srcip ++ put32 dstip
  | .setcsum value => [opSetcsum] ++ put16 value

/-! ## The opcode table's numbering of a packet's bits -/

/-- The `n` lowest bytes of `w`, least significant first: the table's bit 0 is the lowest bit of pkt[0], and the second
byte is bits 15 to 8. -/
def tableBytes : Nat → Nat → List Byte
  | 0, _ => []
  | n + 1, w => BitVec.ofNat 8 w :: tableBytes n (w / 256)

/-- How long the packet of an opcode is at least: its fixed length, or for a DECODE given by its opcode alone the shortest
packet that loads a header, 1 + 20 bytes (30_encoding.md R76; log entry 12, DESIGN CHOICE). -/
def tableLen (op : Byte) (given : Nat) : Nat :=
  if op = opEncode then 10
  else if op = opEncodeAck then 14
  else if op = opDecode then (if given ≤ 1 then 1 + Config.hdrLen else given)
  else if op = opCsum then 9
  else if op = opSetcsum then 3
  else given

/-- The packet whose first `nbits` bits are `w` in the table's numbering, every further bit of the instruction 0
(log entry 12, DESIGN CHOICE). -/
def tablePacket (nbits w : Nat) : List Byte :=
  let given := (nbits + 7) / 8
  let bits := w % 2 ^ nbits
  tableBytes (max given (tableLen (BitVec.ofNat 8 bits) given)) bits

/-- The instruction the decoder reads from those bits, `none` where it refuses them. -/
def decodeTableWord (nbits w : Nat) : Option Instr :=
  match decode (tablePacket nbits w) with
  | .ok i => some i
  | .error _ => none

end Sys2Proof
end

