-- ==== Sys2Proof/Machine/State.lean ====
section
/-! DEFINITION. The state of one TCPHC unit: HDR, CSUM and STATUS, which are all the spec gives it (10_state.md R33), and
HOST's side of a step, which the spec calls an input (00_scope.md R6, R7): what HOST has delivered and not yet seen taken,
and what its reads have returned. -/

namespace Sys2Proof.Machine

/-- The header buffer's storage: the bytes that have a value, by offset, offsets rising. An offset that is not listed has
no value (10_state.md R20, 70_reset_and_hazards.md R160; log entry 4, DESIGN CHOICE). -/
abbrev Memory := List Host.Cell

/-- Why a step stops. -/
inductive Fault where
  /-- HOST reads a port that has no value (40_codec.md R116; raised by a Read step). Safe: no claim can rest on what a
  chip would put out there (log entry 10, DESIGN CHOICE). -/
  | portHasNoValue (p : Port)
  /-- CSUM meets a byte of HDR that has no value although STATUS.HDR_VALID is 1 (10_state.md R20; raised by CSUM). Safe,
  and no run reaches it: the invariant `State.Inv` rules it out (log entry 11, DESIGN CHOICE). -/
  | hdrHasNoValue
  deriving DecidableEq, Repr

/-- Why the model gives an instruction no meaning. Every command of TCPHC has its meaning, so nothing raises it
(92_eei_decisions.md D33: there are no refusals). -/
inductive Refusal where
  /-- The instruction of this mnemonic is not modelled. Safe: the machine stops. No arm of `exec` raises it. -/
  | notModelled (mnemonic : String)
  deriving DecidableEq, Repr

/-- One TCPHC unit and HOST's side of its steps. -/
structure State where
  /-- HDR, the 20-byte TCP segment header buffer (10_state.md R20). -/
  hdr : Memory
  /-- CSUM, the result of the last successful CSUM command (10_state.md R22). -/
  csum : Half
  /-- STATUS: ERR, ERR_SEEN, HDR_VALID, CSUM_VALID and the hardwired bit 7 (10_state.md R23). -/
  status : Byte
  /-- The model's own: what HOST has delivered and TCPHC has not yet taken, oldest first (00_scope.md R7; log
  entry 1, DESIGN CHOICE). -/
  inbox : List Event
  /-- The model's own: the port and value of every Read step so far, oldest first (70_reset_and_hazards.md R169; log
  entry 3, DESIGN CHOICE). -/
  returned : List (Port × Nat)
  deriving DecidableEq, Repr

/-- The unit right after reset (70_reset_and_hazards.md R160): HDR has no value and STATUS is 0x00. CSUM's 0 is the model's
choice, the spec gives it no value (log entry 5, DESIGN CHOICE). HOST has delivered and read nothing. -/
def State.reset : State :=
  { hdr := [], csum := 0, status := 0x00, inbox := [], returned := [] }

end Sys2Proof.Machine
end

