-- ==== Sys2Proof/Machine/Flags.lean ====
section
/-! DEFINITION. The bits of the two packed bytes: the fields of STATUS (10_state.md R23 to R26) with their error codes
(60_exceptions.md R140), and the flags and data offset of header bytes 12 and 13 (30_encoding.md R61 to R63). -/

namespace Sys2Proof.Machine

/-! ## STATUS -/

/-- The error codes TCPHC produces; 4 to 15 are never produced (60_exceptions.md R140). -/
inductive ErrCode where
  | ok
  | malformedSegment
  | illegalCommand
  | noSegment
  deriving DecidableEq, Repr

/-- The code STATUS.ERR shows for an outcome (60_exceptions.md R140). -/
def errBits : ErrCode → BitVec 4
  | .ok => 0
  | .malformedSegment => 1
  | .illegalCommand => 2
  | .noSegment => 3

/-- STATUS.ERR, bits 3:0 (10_state.md R24). -/
def statusErr (v : Byte) : BitVec 4 := v.extractLsb' 0 4

/-- STATUS.ERR_SEEN, bit 4 (10_state.md R25). -/
def statusErrSeen (v : Byte) : Bool := v.getLsbD 4

/-- STATUS.HDR_VALID, bit 5 (10_state.md R21). -/
def statusHdrValid (v : Byte) : Bool := v.getLsbD 5

/-- STATUS.CSUM_VALID, bit 6 (10_state.md R22). -/
def statusCsumValid (v : Byte) : Bool := v.getLsbD 6

/-- The STATUS byte with these fields; bit 7 is hardwired to 0 (10_state.md R23, R26; log entry 15, DESIGN CHOICE of
form). -/
def packStatus (err : BitVec 4) (errSeen hdrValid csumValid : Bool) : Byte :=
  (0#1 ++ BitVec.ofBool csumValid ++ BitVec.ofBool hdrValid ++ BitVec.ofBool errSeen ++ err : BitVec 8)

/-! ## Header bytes 12 and 13 -/

/-- The bit of byte 13 a flag is (30_encoding.md R63). -/
def flagBit : Flag → Nat
  | .urg => 5
  | .ack => 4
  | .psh => 3
  | .rst => 2
  | .syn => 1
  | .fin => 0

/-- The mask of a flag in byte 13 (30_encoding.md R63). -/
def flagMask (f : Flag) : Byte := 1#8 <<< flagBit f

/-- The flag byte with exactly these flags: the OR of their masks (30_encoding.md R82, 40_codec.md R118). -/
def flagByte : List Flag → Byte
  | [] => 0
  | f :: fs => flagMask f ||| flagByte fs

/-- A flag of byte 13 (40_codec.md R106 to R111). -/
def flagOf (f : Flag) (b13 : Byte) : Bool := b13.getLsbD (flagBit f)

/-- FLAGS, byte 13 with RSV13 masked off (40_codec.md R105). -/
def flagsOf (b13 : Byte) : Byte := b13 &&& 0x3F

/-- DOFF, the high nibble of byte 12 (40_codec.md R104). -/
def doffOf (b12 : Byte) : BitVec 4 := b12.extractLsb' 4 4

/-- Byte 12 as ENCODE and ENCODE_ACK write it: DOFF 5 and RSV12 0, that is 0x50 (30_encoding.md R61). -/
def encodedByte12 : Byte := Config.doffValue ++ (0#4)

end Sys2Proof.Machine
end

