-- ==== Sys2Proof/Machine/Ops.lean ====
section
/-! DEFINITION. The named operations over HDR and STATUS that every command is written in: reading and writing bytes of
HDR (00_scope.md R12), the fields of STATUS (10_state.md R23), the outcomes of a command, and reset. TCPHC takes no
exception: an error is an outcome code in STATUS (60_exceptions.md R143, R146), and `raiseError` is that outcome. -/

namespace Sys2Proof.Machine

/-! ## HDR -/

/-- The canonical form of HDR: offsets strictly rising, none outside 0..19 (10_state.md R20). -/
abbrev Memory.wf (m : Memory) : Prop :=
  m.Pairwise (fun c d => c.1 < d.1) ∧ ∀ c ∈ m, c.1 < Config.hdrLen

/-- `HDR[o]`: the byte at an offset, `none` where it has no value (00_scope.md R12, 10_state.md R20). -/
def Memory.read : Memory → Nat → Option Byte
  | [], _ => none
  | (a, v) :: rest, o => if a = o then some v else Memory.read rest o

/-- `HDR[o] <- v` (00_scope.md R12). -/
def Memory.write : Memory → Nat → Byte → Memory
  | [], o, v => [(o, v)]
  | (a, w) :: rest, o, v =>
    if o < a then (o, v) :: (a, w) :: rest
    else if o = a then (o, v) :: rest
    else (a, w) :: Memory.write rest o v

/-- The `n` bytes from offset `o` on, first byte first; `none` where one of them has no value. -/
def Memory.readFrom (m : Memory) : (o n : Nat) → Option (List Byte)
  | _, 0 => some []
  | o, n + 1 =>
    match m.read o, Memory.readFrom m (o + 1) n with
    | some b, some bs => some (b :: bs)
    | _, _ => none

/-- The bytes `bs` written from offset `o` on, first byte first. -/
def Memory.writeFrom (m : Memory) (o : Nat) : List Byte → Memory
  | [] => m
  | b :: bs => Memory.writeFrom (m.write o b) (o + 1) bs

/-- `MemRead(o, 2)` (00_scope.md R12). -/
def Memory.read16 (m : Memory) (o : Nat) : Option Half :=
  match m.read o, m.read (o + 1) with
  | some a, some b => some (be16 a b)
  | _, _ => none

/-- `MemRead(o, 4)` (00_scope.md R12). -/
def Memory.read32 (m : Memory) (o : Nat) : Option Word :=
  match m.read16 o, m.read16 (o + 2) with
  | some h, some l => some (h ++ l)
  | _, _ => none

/-- `MemWrite(o, 2, v)` (00_scope.md R12). -/
def Memory.write16 (m : Memory) (o : Nat) (v : Half) : Memory := m.writeFrom o (put16 v)

/-- `MemWrite(o, 4, v)` (00_scope.md R12). -/
def Memory.write32 (m : Memory) (o : Nat) (v : Word) : Memory := m.writeFrom o (put32 v)

/-! ## STATUS -/

/-- STATUS.ERR (10_state.md R24). -/
def State.err (s : State) : BitVec 4 := statusErr s.status

/-- STATUS.ERR_SEEN (10_state.md R25). -/
def State.errSeen (s : State) : Bool := statusErrSeen s.status

/-- STATUS.HDR_VALID (10_state.md R21). -/
def State.hdrValid (s : State) : Bool := statusHdrValid s.status

/-- STATUS.CSUM_VALID (10_state.md R22). -/
def State.csumValid (s : State) : Bool := statusCsumValid s.status

/-- The one operation that writes STATUS: all its fields, bit 7 hardwired to 0 (10_state.md R23, R26). -/
def State.writeStatus (err : BitVec 4) (errSeen hdrValid csumValid : Bool) (s : State) : State :=
  { s with status := packStatus err errSeen hdrValid csumValid }

/-- The one operation that reads STATUS whole; bit 7 is hardwired and reads 0 (10_state.md R23, R26). -/
def State.readStatus (s : State) : Byte := packStatus s.err s.errSeen s.hdrValid s.csumValid

/-! ## Outcomes of a command -/

/-- A command that finishes without raising an error: ERR is 0, ERR_SEEN stays, and the valid bits are as the command
rule leaves them (40_codec.md R91). -/
def State.succeed (hdrValid csumValid : Bool) (s : State) : State :=
  s.writeStatus (errBits .ok) s.errSeen hdrValid csumValid

/-- The common error outcome: ERR is the code, ERR_SEEN is 1, nothing else is written (60_exceptions.md R143). -/
def State.raiseError (e : ErrCode) (s : State) : State :=
  s.writeStatus (errBits e) true s.hdrValid s.csumValid

/-- The MALFORMED_SEGMENT outcome: the common one, and HDR_VALID is cleared (60_exceptions.md R144). -/
def State.raiseMalformed (s : State) : State :=
  s.writeStatus (errBits .malformedSegment) true false s.csumValid

/-! ## Reset -/

/-- HOST asserts reset: HDR, CSUM and STATUS are as right after power-on (70_reset_and_hazards.md R160, R161). HOST's own
deliveries and the record of its reads are not TCPHC's and stay (log entry 6, DESIGN CHOICE). -/
def State.assertReset (s : State) : State :=
  { State.reset with inbox := s.inbox, returned := s.returned }

end Sys2Proof.Machine
end

