-- ==== Sys2Proof/Machine/Operands.lean ====
section
/-! DEFINITION. The forms HDR is reached in: the whole header packed from its fields or loaded from bytes
(30_encoding.md R60), and the read ports (10_state.md R27; 40_codec.md R100 to R116). -/

namespace Sys2Proof.Machine

/-! ## Writing a whole header -/

/-- The header ENCODE and ENCODE_ACK write, field by field, with the checksum and urgent pointer zeroed
(30_encoding.md R60; 40_codec.md R92, R93). -/
def Memory.packHeader (sport dport : Half) (seq acknum : Word) (flags : Byte) (m : Memory) : Memory :=
  let m := m.write16 0 sport
  let m := m.write16 2 dport
  let m := m.write32 4 seq
  let m := m.write32 8 acknum
  let m := m.write 12 encodedByte12
  let m := m.write 13 flags
  let m := m.write16 14 Config.windowValue
  let m := m.write16 16 0
  m.write16 18 Config.urgptrValue

/-- `HDR[i] <- DATA[i]` for i in 0..19; bytes from 20 on are not looked at (40_codec.md R96, R97). -/
def Memory.loadHeader (data : List Byte) (m : Memory) : Memory :=
  m.writeFrom 0 (data.take Config.hdrLen)

/-! ## Read ports -/

/-- The width of a port (10_state.md R27). -/
def portWidth : Port → Nat
  | .srcPort => 16
  | .dstPort => 16
  | .seq => 32
  | .acknum => 32
  | .doff => 4
  | .flags => Config.flagBits
  | .flag _ => 1
  | .window => 16
  | .checksum => 16
  | .urgptr => 16
  | .raw _ => 8
  | .csumOut => 16
  | .statusOut => 8

/-- What a port that shows HDR reads from the buffer alone, `none` where a byte of it has no value
(40_codec.md R100 to R115); the two ports that do not show HDR have nothing here. -/
def headerPort (m : Memory) : Port → Option Nat
  | .srcPort => (m.read16 0).map BitVec.toNat
  | .dstPort => (m.read16 2).map BitVec.toNat
  | .seq => (m.read32 4).map BitVec.toNat
  | .acknum => (m.read32 8).map BitVec.toNat
  | .doff => (m.read 12).map (fun b => (doffOf b).toNat)
  | .flags => (m.read 13).map (fun b => (flagsOf b).toNat)
  | .flag f => (m.read 13).map (fun b => (flagOf f b).toNat)
  | .window => (m.read16 14).map BitVec.toNat
  | .checksum => (m.read16 16).map BitVec.toNat
  | .urgptr => (m.read16 18).map BitVec.toNat
  | .raw i => (m.read i.val).map BitVec.toNat
  | .csumOut => none
  | .statusOut => none

/-- The value of a read port, `none` where it has no value: a port that shows HDR while HDR_VALID is 0, CSUM_OUT while
CSUM_VALID is 0; STATUS_OUT always has a value (40_codec.md R116). -/
def readPort (p : Port) (s : State) : Option Nat :=
  match p with
  | .csumOut => if s.csumValid then some s.csum.toNat else none
  | .statusOut => some s.readStatus.toNat
  | p => if s.hdrValid then headerPort s.hdr p else none

end Sys2Proof.Machine
end

