-- ==== Sys2Proof/Machine/Checksum.lean ====
section
/-! DEFINITION. The Checksum Engine: the one's-complement primitive (41_checksum.md R120), the pseudo-header and the
checksum buffer (30_encoding.md R70, R72), and the command CSUM (41_checksum.md R122). -/

namespace Sys2Proof.Machine

/-- The sum of a byte sequence's 16-bit big-endian words, an odd trailing byte the high byte of a last word; nothing wraps
(41_checksum.md R120). -/
def wordSum : List Byte → Nat
  | [] => 0
  | [b] => b.toNat * 256
  | a :: b :: rest => (be16 a b).toNat + wordSum rest

/-- One turn of the carry fold: the bits above position 15 added to the low 16 (41_checksum.md R120). -/
def foldOnce (sum : Nat) : Nat := sum % 65536 + sum / 65536

/-- The fold loop, at most `fuel` turns: it turns while the sum exceeds 0xFFFF (41_checksum.md R120). -/
def foldLoop : (fuel sum : Nat) → Nat
  | 0, sum => sum
  | fuel + 1, sum => if 65535 < sum then foldLoop fuel (foldOnce sum) else sum

/-- The fold loop run to its end: each turn lowers a sum above 0xFFFF (41_checksum.md R121), so `sum` turns are enough. -/
def carryFold (sum : Nat) : Nat := foldLoop sum sum

/-- `ocsum(B)`: the one's complement of the folded word sum (41_checksum.md R120). -/
def ocsum (bytes : List Byte) : Half := BitVec.ofNat 16 (65535 - carryFold (wordSum bytes))

/-- The pseudo-header P, 12 bytes (30_encoding.md R70). -/
def pseudoHeader (srcip dstip : Word) : List Byte :=
  put32 srcip ++ put32 dstip ++ [0x00, Config.proto] ++ put16 Config.segLen

/-- The checksum buffer B, P followed by the header's bytes (30_encoding.md R72). -/
def checksumBuffer (srcip dstip : Word) (header : List Byte) : List Byte := pseudoHeader srcip dstip ++ header

/-- CSUM (41_checksum.md R122): NO_SEGMENT while HDR_VALID is 0 (60_exceptions.md R142); else CSUM is the checksum of the
buffer, the CHECKSUM field as it stands; ERR 0, CSUM_VALID 1. A header byte with no value stops it (10_state.md R20; log
entry 11, DESIGN CHOICE: no run reaches that). -/
def execCsum (srcip dstip : Word) (s : State) : Host.Outcome State Fault Refusal :=
  if s.hdrValid then
    match s.hdr.readFrom 0 Config.hdrLen with
    | some header =>
      .next (State.succeed true true { s with csum := ocsum (checksumBuffer srcip dstip header) })
    | none => .fault .hdrHasNoValue
  else .next (s.raiseError .noSegment)

end Sys2Proof.Machine
end

