-- ==== Sys2Proof/Machine/Codec.lean ====
section
/-! DEFINITION. The Segment Codec's commands: ENCODE, ENCODE_ACK, DECODE and SETCSUM (40_codec.md R92 to R98). -/

namespace Sys2Proof.Machine

/-- ENCODE (40_codec.md R92): a fresh header with acknowledgement number 0; ERR 0, HDR_VALID 1. -/
def execEncode (sport dport : Half) (seq : Word) (flags : Byte) (s : State) : Host.Outcome State Fault Refusal :=
  .next (State.succeed true s.csumValid { s with hdr := s.hdr.packHeader sport dport seq 0 flags })

/-- ENCODE_ACK (40_codec.md R93): ENCODE with an acknowledgement number. -/
def execEncodeAck (sport dport : Half) (seq acknum : Word) (flags : Byte) (s : State) :
    Host.Outcome State Fault Refusal :=
  .next (State.succeed true s.csumValid { s with hdr := s.hdr.packHeader sport dport seq acknum flags })

/-- DECODE (40_codec.md R96): fewer than 20 bytes are a MALFORMED_SEGMENT (60_exceptions.md R144); else the first 20 are
the header; ERR 0, HDR_VALID 1. The bound MAX_DECODE_LEN is the packet's, checked in `decode` (log entry 14, DEDUCED). -/
def execDecode (data : List Byte) (s : State) : Host.Outcome State Fault Refusal :=
  if data.length < Config.hdrLen then .next s.raiseMalformed
  else .next (State.succeed true s.csumValid { s with hdr := s.hdr.loadHeader data })

/-- SETCSUM (40_codec.md R98): NO_SEGMENT while HDR_VALID is 0 (60_exceptions.md R142); else bytes 16 and 17 are the value;
ERR 0. -/
def execSetcsum (value : Half) (s : State) : Host.Outcome State Fault Refusal :=
  if s.hdrValid then .next (State.succeed true s.csumValid { s with hdr := s.hdr.write16 16 value })
  else .next (s.raiseError .noSegment)

end Sys2Proof.Machine
end

