-- ==== Sys2Proof/Machine/Dispatch.lean ====
section
/-! DEFINITION. Which meaning each command runs (40_codec.md R90). -/

namespace Sys2Proof.Machine

def exec (i : Instr) (s : State) : Host.Outcome State Fault Refusal :=
  match i with
  | .encode sport dport seq flags => Sys2Proof.Machine.execEncode sport dport seq flags s
  | .encodeAck sport dport seq acknum flags => Sys2Proof.Machine.execEncodeAck sport dport seq acknum flags s
  | .decode data => Sys2Proof.Machine.execDecode data s
  | .csum srcip dstip => Sys2Proof.Machine.execCsum srcip dstip s
  | .setcsum value => Sys2Proof.Machine.execSetcsum value s

end Sys2Proof.Machine
end

