-- ==== Sys2Proof/Machine/Deliver.lean ====
section
/-! DEFINITION. What one delivery of HOST does (00_scope.md R7): a command packet (40_codec.md R90), a reset or a read of
a port; and a run of deliveries in order (20_memory.md R49, 70_reset_and_hazards.md R169). -/

namespace Sys2Proof.Machine

/-- `Cmd(pkt)`: a packet that is not well-formed is an ILLEGAL_COMMAND, checked first and on the packet alone; a
well-formed one runs its command (40_codec.md R90, 60_exceptions.md R141, R145). -/
def runPacket (pkt : List Byte) (s : State) : Host.Outcome State Fault Refusal :=
  match decode pkt with
  | .ok i => exec i s
  | .error _ => .next (s.raiseError .illegalCommand)

/-- `Read(port)`: HOST gets the port's value and TCPHC's state does not change (10_state.md R27); a port with no value is a
fault (40_codec.md R116, log entry 10, DESIGN CHOICE). -/
def runRead (p : Port) (s : State) : Host.Outcome State Fault Refusal :=
  match readPort p s with
  | some v => .next { s with returned := s.returned ++ [(p, v)] }
  | none => .fault (.portHasNoValue p)

/-- One delivery, the three kinds of step (00_scope.md R7). -/
def runEvent (e : Event) (s : State) : Host.Outcome State Fault Refusal :=
  match e with
  | .cmd pkt => runPacket pkt s
  | .reset => .next s.assertReset
  | .read p => runRead p s

/-- The next state given to `f`; a stop stays the stop it is. -/
def andThen (o : Host.Outcome State Fault Refusal) (f : State → Host.Outcome State Fault Refusal) :
    Host.Outcome State Fault Refusal :=
  match o with
  | .next s => f s
  | .fault r => .fault r
  | .refused r => .refused r

/-- Deliveries taken in order, each seeing every effect of the ones before it (20_memory.md R49). -/
def runEvents : List Event → State → Host.Outcome State Fault Refusal
  | [], s => .next s
  | e :: es, s => andThen (runEvent e s) (runEvents es)

end Sys2Proof.Machine
end

