-- ==== Sys2Proof/Machine/Step.lean ====
section
/-! DEFINITION. One step of the machine: it takes HOST's oldest delivery (00_scope.md R6, R7). -/

namespace Sys2Proof.Machine

/-- One step. With nothing delivered TCPHC does nothing (00_scope.md R6, 70_reset_and_hazards.md R162; log
entry 2, DEDUCED). -/
def step (s : State) : Host.Outcome State Fault Refusal :=
  match s.inbox with
  | [] => .next s
  | e :: rest => runEvent e { s with inbox := rest }

/-- The packet of those table bits as HOST's oldest delivery, so that the very next step runs it (log
entry 12, DESIGN CHOICE). -/
def State.withFetchWord (s : State) (nbits w : Nat) : State :=
  { s with inbox := Event.cmd (tablePacket nbits w) :: s.inbox }

end Sys2Proof.Machine
end

