-- ==== Sys2Proof/Machine/HostSeq.lean ====
section
/-! DEFINITION. The sequences HOST issues that the spec names: the pseudo-instructions (30_encoding.md R83) and the
transmit sequence (70_reset_and_hazards.md R164). They are sequences of ordinary deliveries; nothing in TCPHC is theirs. -/

namespace Sys2Proof.Machine

/-- The pseudo-instructions (30_encoding.md R83). -/
inductive Pseudo where
  /-- ENCODE_SYN sport, dport, seq. -/
  | encodeSyn (sport dport : Half) (seq : Word)
  /-- CLRCSUM. -/
  | clrcsum
  /-- VERIFY srcip, dstip. -/
  | verify (srcip dstip : Word)
  /-- INSCSUM srcip, dstip. -/
  | inscsum (srcip dstip : Word)
  deriving DecidableEq, Repr

/-- HOST issues one command: it delivers the command's packet. -/
def issue (i : Instr) (s : State) : Host.Outcome State Fault Refusal := runEvent (.cmd (encode i)) s

/-- READ CSUM_OUT giving c, then SETCSUM c (30_encoding.md R83, 70_reset_and_hazards.md R164 steps 3 and 4). -/
def insertCsumOut (s : State) : Host.Outcome State Fault Refusal :=
  match readPort .csumOut s with
  | none => .fault (.portHasNoValue .csumOut)
  | some c => andThen (runEvent (.read .csumOut) s) (issue (.setcsum (BitVec.ofNat 16 c)))

/-- What a pseudo-instruction does: its expansion, delivered in order (30_encoding.md R83). -/
def runPseudo (p : Pseudo) (s : State) : Host.Outcome State Fault Refusal :=
  match p with
  | .encodeSyn sport dport seq => issue (.encode sport dport seq (flagMask .syn)) s
  | .clrcsum => issue (.setcsum 0) s
  | .verify srcip dstip => issue (.csum srcip dstip) s
  | .inscsum srcip dstip =>
    andThen (issue (.setcsum 0) s) (fun s => andThen (issue (.csum srcip dstip) s) insertCsumOut)

/-- The segment passes a VERIFY: afterwards STATUS.ERR = 0 and CSUM_OUT = 0x0000 (30_encoding.md R83). -/
def verifyPasses (s : State) : Bool := decide (s.err = 0) && decide (readPort .csumOut s = some 0)

/-- The reads of RAW(0) to RAW(19), in order (70_reset_and_hazards.md R164 step 5). -/
def readRawAll : List Event := (List.finRange 20).map (fun i => Event.read (.raw i))

/-- The transmit sequence (70_reset_and_hazards.md R164): an ENCODE or ENCODE_ACK, CSUM, the read of CSUM_OUT, SETCSUM, and
the reads of the 20 raw bytes. -/
def transmit (i : Instr) (srcip dstip : Word) (s : State) : Host.Outcome State Fault Refusal :=
  andThen (issue i s) (fun s =>
    andThen (issue (.csum srcip dstip) s) (fun s =>
      andThen (insertCsumOut s) (runEvents readRawAll)))

end Sys2Proof.Machine
end

