-- ==== Sys2Proof/Machine/Asm.lean ====
section
/-! DEFINITION. The assembler of TCPHC command sequences (30_encoding.md R82, R83): a text, as its characters, to the
deliveries and pseudo-instructions it stands for. What the rule leaves open about the text's form is in log
entry 13, DESIGN CHOICE. -/

namespace Sys2Proof.Machine

/-- What one line of a sequence stands for: a delivery, or a pseudo-instruction (30_encoding.md R82, R83). -/
inductive AsmItem where
  | deliver (e : Event)
  | pseudo (p : Pseudo)
  deriving DecidableEq, Repr

/-! ## Words -/

/-- The pieces of a text between separators; two separators side by side leave an empty piece. -/
def splitText (sep : Char → Bool) : List Char → List (List Char)
  | [] => [[]]
  | c :: cs =>
    if sep c then [] :: splitText sep cs
    else
      match splitText sep cs with
      | [] => [[c]]
      | w :: ws => (c :: w) :: ws

/-- What stands before the comment sign (30_encoding.md R82). -/
def stripComment (line : List Char) : List Char := line.takeWhile (fun c => decide (c ≠ ';'))

/-- The words of a line: what stands between blanks, tabs and commas. -/
def asmWords (line : List Char) : List (List Char) :=
  (splitText (fun c => decide (c = ' ') || decide (c = '\t') || decide (c = ',') || decide (c = '\r'))
    (stripComment line)).filter (fun w => !w.isEmpty)

/-! ## Numbers, flags and addresses -/

/-- The value of a digit, decimal or hexadecimal. -/
def digitValue (c : Char) : Option Nat :=
  if 48 ≤ c.toNat ∧ c.toNat ≤ 57 then some (c.toNat - 48)
  else if 97 ≤ c.toNat ∧ c.toNat ≤ 102 then some (c.toNat - 87)
  else if 65 ≤ c.toNat ∧ c.toNat ≤ 70 then some (c.toNat - 55)
  else none

/-- The number a sequence of digits of a base is, after the digits already read. -/
def digitsFrom (base : Nat) : Nat → List Char → Option Nat
  | n, [] => some n
  | n, c :: cs =>
    match digitValue c with
    | some d => if d < base then digitsFrom base (n * base + d) cs else none
    | none => none

/-- A number: decimal or `0x` hex (30_encoding.md R82). -/
def parseNumber : List Char → Option Nat
  | [] => none
  | '0' :: 'x' :: [] => none
  | '0' :: 'x' :: c :: cs => digitsFrom 16 0 (c :: cs)
  | c :: cs => digitsFrom 10 0 (c :: cs)

/-- A number that fits an operand of `w` bits. -/
def parseField (w : Nat) (text : List Char) : Option (BitVec w) :=
  match parseNumber text with
  | some n => if n < 2 ^ w then some (BitVec.ofNat w n) else none
  | none => none

/-- The flag symbols (30_encoding.md R82). -/
def parseFlag (text : List Char) : Option Flag :=
  if text = ['F', 'I', 'N'] then some .fin
  else if text = ['S', 'Y', 'N'] then some .syn
  else if text = ['R', 'S', 'T'] then some .rst
  else if text = ['P', 'S', 'H'] then some .psh
  else if text = ['A', 'C', 'K'] then some .ack
  else if text = ['U', 'R', 'G'] then some .urg
  else none

/-- Every entry parsed, or nothing. -/
def parseAll {α : Type} (f : List Char → Option α) : List (List Char) → Option (List α)
  | [] => some []
  | w :: ws =>
    match f w, parseAll f ws with
    | some a, some as => some (a :: as)
    | _, _ => none

/-- A flag operand: a number, or an OR of flag symbols such as `SYN|ACK` (30_encoding.md R82). -/
def parseFlags (text : List Char) : Option Byte :=
  match parseAll parseFlag (splitText (fun c => decide (c = '|')) text) with
  | some fs => some (flagByte fs)
  | none => parseField 8 text

/-- One part of a dotted quad: a decimal number below 256. -/
def parseOctet (text : List Char) : Option Byte :=
  match text with
  | [] => none
  | c :: cs =>
    match digitsFrom 10 0 (c :: cs) with
    | some n => if n < 256 then some (BitVec.ofNat 8 n) else none
    | none => none

/-- An IPv4 address: a dotted quad `a.b.c.d`, octet a most significant (30_encoding.md R71), or a 32-bit number
(30_encoding.md R82). -/
def parseAddress (text : List Char) : Option Word :=
  match parseAll parseOctet (splitText (fun c => decide (c = '.')) text) with
  | some [a, b, c, d] => some (be32 a b c d)
  | _ => parseField 32 text

/-- A data byte of a DECODE line: two hex digits (30_encoding.md R82). -/
def parseHexByte : List Char → Option Byte
  | [h, l] => (digitsFrom 16 0 [h, l]).map (BitVec.ofNat 8)
  | _ => none

/-- The offset of a `RAW(i)` port, 0 to 19 (40_codec.md R115). -/
def parseRaw (text : List Char) : Option Port :=
  match text with
  | 'R' :: 'A' :: 'W' :: '(' :: rest =>
    if rest.getLast? = some ')' then
      match parseNumber rest.dropLast with
      | some n => if h : n < 20 then some (.raw ⟨n, h⟩) else none
      | none => none
    else none
  | _ => none

/-- The name of a read port (10_state.md R27). -/
def parsePort (text : List Char) : Option Port :=
  if text = ['S', 'R', 'C', '_', 'P', 'O', 'R', 'T'] then some .srcPort
  else if text = ['D', 'S', 'T', '_', 'P', 'O', 'R', 'T'] then some .dstPort
  else if text = ['S', 'E', 'Q'] then some .seq
  else if text = ['A', 'C', 'K', 'N', 'U', 'M'] then some .acknum
  else if text = ['D', 'O', 'F', 'F'] then some .doff
  else if text = ['F', 'L', 'A', 'G', 'S'] then some .flags
  else if text = ['F', '_', 'U', 'R', 'G'] then some (.flag .urg)
  else if text = ['F', '_', 'A', 'C', 'K'] then some (.flag .ack)
  else if text = ['F', '_', 'P', 'S', 'H'] then some (.flag .psh)
  else if text = ['F', '_', 'R', 'S', 'T'] then some (.flag .rst)
  else if text = ['F', '_', 'S', 'Y', 'N'] then some (.flag .syn)
  else if text = ['F', '_', 'F', 'I', 'N'] then some (.flag .fin)
  else if text = ['W', 'I', 'N', 'D', 'O', 'W'] then some .window
  else if text = ['C', 'H', 'E', 'C', 'K', 'S', 'U', 'M'] then some .checksum
  else if text = ['U', 'R', 'G', 'P', 'T', 'R'] then some .urgptr
  else if text = ['C', 'S', 'U', 'M', '_', 'O', 'U', 'T'] then some .csumOut
  else if text = ['S', 'T', 'A', 'T', 'U', 'S', '_', 'O', 'U', 'T'] then some .statusOut
  else parseRaw text

/-! ## Lines -/

/-- A line that is one command: the packet of 30_encoding.md R76. -/
def asmCmd (i : Instr) : AsmItem := .deliver (.cmd (encode i))

/-- The operands of an ENCODE line (30_encoding.md R82). -/
def asmEncode : List (List Char) → Option AsmItem
  | [sp, dp, sq, fl] =>
    match parseField 16 sp, parseField 16 dp, parseField 32 sq, parseFlags fl with
    | some sp, some dp, some sq, some fl => some (asmCmd (.encode sp dp sq fl))
    | _, _, _, _ => none
  | _ => none

/-- The operands of an ENCODE_ACK line (30_encoding.md R82). -/
def asmEncodeAck : List (List Char) → Option AsmItem
  | [sp, dp, sq, ak, fl] =>
    match parseField 16 sp, parseField 16 dp, parseField 32 sq, parseField 32 ak, parseFlags fl with
    | some sp, some dp, some sq, some ak, some fl => some (asmCmd (.encodeAck sp dp sq ak fl))
    | _, _, _, _, _ => none
  | _ => none

/-- The data of a DECODE line, hex bytes, pkt[1] first (30_encoding.md R82). -/
def asmDecode (ws : List (List Char)) : Option AsmItem :=
  (parseAll parseHexByte ws).map (fun data => asmCmd (.decode data))

/-- The operands of a CSUM line (30_encoding.md R82). -/
def asmCsum : List (List Char) → Option AsmItem
  | [src, dst] =>
    match parseAddress src, parseAddress dst with
    | some src, some dst => some (asmCmd (.csum src dst))
    | _, _ => none
  | _ => none

/-- The operand of a SETCSUM line (30_encoding.md R82). -/
def asmSetcsum : List (List Char) → Option AsmItem
  | [v] =>
    match parseField 16 v with
    | some v => some (asmCmd (.setcsum v))
    | _ => none
  | _ => none

/-- The port of a READ line (30_encoding.md R82). -/
def asmRead : List (List Char) → Option AsmItem
  | [p] =>
    match parsePort p with
    | some p => some (.deliver (.read p))
    | _ => none
  | _ => none

/-- The operands of an ENCODE_SYN line (30_encoding.md R83). -/
def asmEncodeSyn : List (List Char) → Option AsmItem
  | [sp, dp, sq] =>
    match parseField 16 sp, parseField 16 dp, parseField 32 sq with
    | some sp, some dp, some sq => some (.pseudo (.encodeSyn sp dp sq))
    | _, _, _ => none
  | _ => none

/-- The operands of a VERIFY line (30_encoding.md R83). -/
def asmVerify : List (List Char) → Option AsmItem
  | [src, dst] =>
    match parseAddress src, parseAddress dst with
    | some src, some dst => some (.pseudo (.verify src dst))
    | _, _ => none
  | _ => none

/-- The operands of an INSCSUM line (30_encoding.md R83). -/
def asmInscsum : List (List Char) → Option AsmItem
  | [src, dst] =>
    match parseAddress src, parseAddress dst with
    | some src, some dst => some (.pseudo (.inscsum src dst))
    | _, _ => none
  | _ => none

/-- A line that takes no operand. -/
def asmBare (item : AsmItem) : List (List Char) → Option AsmItem
  | [] => some item
  | _ => none

/-- The line a keyword starts, from the words after it (30_encoding.md R82, R83). -/
def asmKeyword (key : List Char) (ws : List (List Char)) : Option AsmItem :=
  if key = ['E', 'N', 'C', 'O', 'D', 'E'] then asmEncode ws
  else if key = ['E', 'N', 'C', 'O', 'D', 'E', '_', 'A', 'C', 'K'] then asmEncodeAck ws
  else if key = ['D', 'E', 'C', 'O', 'D', 'E'] then asmDecode ws
  else if key = ['C', 'S', 'U', 'M'] then asmCsum ws
  else if key = ['S', 'E', 'T', 'C', 'S', 'U', 'M'] then asmSetcsum ws
  else if key = ['R', 'E', 'A', 'D'] then asmRead ws
  else if key = ['R', 'E', 'S', 'E', 'T'] then asmBare (.deliver .reset) ws
  else if key = ['E', 'N', 'C', 'O', 'D', 'E', '_', 'S', 'Y', 'N'] then asmEncodeSyn ws
  else if key = ['C', 'L', 'R', 'C', 'S', 'U', 'M'] then asmBare (.pseudo .clrcsum) ws
  else if key = ['V', 'E', 'R', 'I', 'F', 'Y'] then asmVerify ws
  else if key = ['I', 'N', 'S', 'C', 'S', 'U', 'M'] then asmInscsum ws
  else none

/-- What a line stands for: nothing where it is blank or only a comment; `none` where it is no line of the language. -/
def assembleLine (line : List Char) : Option (List AsmItem) :=
  match asmWords line with
  | [] => some []
  | key :: ws => (asmKeyword key ws).map (fun item => [item])

/-- A text's lines, assembled in order. -/
def assemble (text : List Char) : Option (List AsmItem) :=
  (parseAll assembleLine (splitText (fun c => decide (c = '\n')) text)).map List.flatten

/-- HOST issues what a text stands for, in order (20_memory.md R49). -/
def runItems : List AsmItem → State → Host.Outcome State Fault Refusal
  | [], s => .next s
  | .deliver e :: items, s => andThen (runEvent e s) (runItems items)
  | .pseudo p :: items, s => andThen (runPseudo p s) (runItems items)

end Sys2Proof.Machine
end

