-- ==== Sys2Proof/Machine/System.lean ====
section
/-! DEFINITION. A system of N_INSTANCES TCPHC units, each with its own HDR, CSUM and STATUS and its own deliveries
(00_scope.md R9; 20_memory.md R54; 60_exceptions.md R152; log entry 8, DESIGN CHOICE). -/

namespace Sys2Proof.Machine

/-- The units of a system. -/
structure System where
  units : List State
  deriving DecidableEq, Repr

/-- The system right after power-on: N_INSTANCES units, each reset (60_exceptions.md R152). -/
def System.reset : System := { units := List.replicate Config.nUnits State.reset }

/-- HOST delivers one more event to a unit. -/
def System.deliver (k : Nat) (e : Event) (y : System) : System :=
  { units := y.units.modify k (fun s => { s with inbox := s.inbox ++ [e] }) }

/-- One step of unit `k`, which no other unit takes part in; a number with no unit behind it names nothing and steps
nothing (60_exceptions.md R152: units have no identifiers a program sees). A fault of the unit's step
is a fault of the system's: there is then no next System, and the fault does not name the unit. The spec gives the fault of a
Read for one unit alone (40_codec.md R116) and says nothing of the others (log entry 16, DESIGN CHOICE; safe: the system
stops where the other units would go on). -/
def System.stepUnit (k : Nat) (y : System) : Host.Outcome System Fault Refusal :=
  match y.units[k]? with
  | none => .next y
  | some s =>
    match step s with
    | .next t => .next { units := y.units.set k t }
    | .fault r => .fault r
    | .refused r => .refused r

end Sys2Proof.Machine
end

