-- ==== Sys2Proof/Safety.lean ====
section
/-! DEFINITION. What claims about TCPHC are stated in: the invariant of every reachable state, "no error recorded"
(10_state.md R25), and what a run shows of its last state (70_reset_and_hazards.md R169). -/

namespace Sys2Proof.Machine

/-- All 20 bytes of HDR have a value. -/
def State.hdrWritten (s : State) : Bool := (s.hdr.readFrom 0 Config.hdrLen).isSome

/-- What holds of every state a run reaches: HDR is in canonical form within offsets 0..19 (10_state.md R20) and holds
either no byte or all 20 (R28); it holds all 20 while HDR_VALID or CSUM_VALID is 1 (R21, R22); STATUS bit 7 is 0 (R26); ERR is
0 to 3 (R24), and not 0 only when ERR_SEEN is 1 (R25); a valid CSUM is not 0xFFFF (41_checksum.md R129). -/
abbrev State.Inv (s : State) : Prop :=
  s.hdr.wf ∧
  (s.hdr = [] ∨ s.hdrWritten = true) ∧
  (s.hdrValid = true → s.hdrWritten = true) ∧
  (s.csumValid = true → s.hdrWritten = true) ∧
  s.status.getLsbD 7 = false ∧
  s.err ≤ 3 ∧
  (s.err ≠ 0 → s.errSeen = true) ∧
  (s.csumValid = true → s.csum ≠ 0xFFFF)

/-- The `n` bytes of a number, most significant first (00_scope.md R10). -/
def bigEndian : (n v : Nat) → List Byte
  | 0, _ => []
  | n + 1, v => bigEndian n (v / 256) ++ [BitVec.ofNat 8 v]

/-- The 20 bytes of the header with these fields, DOFF 5, window 65535 and the checksum and urgent pointer 0, as
30_encoding.md R60 and 40_codec.md R92 and R93 lay them out. -/
def headerImage (sport dport : Half) (seq acknum : Word) (flags : Byte) : List Byte :=
  bigEndian 2 sport.toNat ++ bigEndian 2 dport.toNat ++ bigEndian 4 seq.toNat ++ bigEndian 4 acknum.toNat ++
    [0x50, flags, 0xFF, 0xFF, 0x00, 0x00, 0x00, 0x00]

/-- The field ports show these operands, and DOFF 5, window 65535, checksum 0 and urgent pointer 0 (40_codec.md R117). -/
def State.showsFields (sport dport : Half) (seq acknum : Word) (flags : Byte) (t : State) : Prop :=
  readPort .srcPort t = some sport.toNat ∧ readPort .dstPort t = some dport.toNat ∧
  readPort .seq t = some seq.toNat ∧ readPort .acknum t = some acknum.toNat ∧ readPort .doff t = some 5 ∧
  readPort .flags t = some flags.toNat ∧ readPort .window t = some 0xFFFF ∧ readPort .checksum t = some 0 ∧
  readPort .urgptr t = some 0

/-- HOST's side, the model's own fields (log entries 1 and 3, DESIGN CHOICE), is the same in both states. -/
abbrev State.hostSame (s t : State) : Prop := t.inbox = s.inbox ∧ t.returned = s.returned

/-- From `s`, a command that raised the error of this code led to `t`: ERR is the code, ERR_SEEN is 1, all else is as it
was (60_exceptions.md R143). -/
abbrev State.failsAs (code : BitVec 4) (s t : State) : Prop :=
  t.err = code ∧ t.errSeen = true ∧ t.hdr = s.hdr ∧ t.csum = s.csum ∧ t.hdrValid = s.hdrValid ∧
  t.csumValid = s.csumValid ∧ s.hostSame t

/-- No command has failed since reset: STATUS.ERR_SEEN is 0 (10_state.md R25, 70_reset_and_hazards.md R169). -/
def State.noErrorRecorded (s : State) : Bool := !s.errSeen

/-- What a run shows at its end (70_reset_and_hazards.md R169): HDR, CSUM while it has a value, STATUS, the value of every
read port in that state, and the values the Read steps returned. -/
structure Observation where
  hdr : Memory
  csum : Option Nat
  status : Byte
  ports : List (Port × Option Nat)
  returned : List (Port × Nat)
  deriving DecidableEq, Repr

/-- Every read port (10_state.md R27). -/
def allPorts : List Port :=
  [.srcPort, .dstPort, .seq, .acknum, .doff, .flags] ++
  [Flag.urg, .ack, .psh, .rst, .syn, .fin].map Port.flag ++
  [.window, .checksum, .urgptr] ++ (List.finRange 20).map Port.raw ++ [.csumOut, .statusOut]

/-- The observation of a run's last state (70_reset_and_hazards.md R169). -/
def State.observe (s : State) : Observation :=
  { hdr := s.hdr
    csum := readPort .csumOut s
    status := s.readStatus
    ports := allPorts.map (fun p => (p, readPort p s))
    returned := s.returned }

/-- Every unit of a system meets the invariant, and there are N_INSTANCES of them (60_exceptions.md R152). -/
def System.Inv (y : System) : Prop := y.units.length = Config.nUnits ∧ ∀ s ∈ y.units, s.Inv

end Sys2Proof.Machine
end

