-- ==== Sys2Proof/Certificates/Slice0/Obligations.lean ====
section
/-! DEFINITION. The statements for the provers, from the numbered rules of spec/. Each docstring names the rule it
formalises; where a clause is the spec's own inference or rests on a log entry, it says so. A clause `hostSame` is about
the two fields of State that are the model's own, HOST's `inbox` and `returned` (log entries 1 and 3). -/

open Sys2Proof Sys2Proof.Machine

/-! ## Command packets (30_encoding.md) -/

/-- Packets written out byte by byte from 30_encoding.md R76 and R77 (the packets of 95_test_vectors.md V1, V2 and V3) decode
to the commands they stand for. -/
def Obligations.SampleWordsDecode : Prop :=
  decode [0x01, 0xD4, 0x31, 0x00, 0x50, 0x00, 0x00, 0x03, 0xE8, 0x02] = .ok (.encode 54321 80 1000 0x02) ∧
  decode [0x02, 0xD4, 0x31, 0x00, 0x50, 0x00, 0x00, 0x03, 0xE9, 0x12, 0x34, 0x56, 0x79, 0x10] =
    .ok (.encodeAck 54321 80 1001 0x12345679 0x10) ∧
  decode [0x03, 0xAB, 0xCD] = .ok (.decode [0xAB, 0xCD]) ∧
  decode [0x04, 0xC0, 0xA8, 0xD7, 0x03, 0x8E, 0xFA, 0xBD, 0xCE] = .ok (.csum 0xC0A8D703 0x8EFABDCE) ∧
  decode [0x05, 0xF3, 0x03] = .ok (.setcsum 0xF303)

/-- 30_encoding.md R76 and R81: opcode and length select the command, and each operand is the unsigned big-endian value of
its bytes, whatever the bytes are. -/
def Obligations.OpcodeSelectsCommandAndOperands : Prop :=
  (∀ s0 s1 d0 d1 q0 q1 q2 q3 f : Byte,
    decode [0x01, s0, s1, d0, d1, q0, q1, q2, q3, f] =
      .ok (.encode (BitVec.ofNat 16 (s0.toNat * 256 + s1.toNat)) (BitVec.ofNat 16 (d0.toNat * 256 + d1.toNat))
        (BitVec.ofNat 32 (q0.toNat * 16777216 + q1.toNat * 65536 + q2.toNat * 256 + q3.toNat)) f)) ∧
  (∀ s0 s1 d0 d1 q0 q1 q2 q3 a0 a1 a2 a3 f : Byte,
    decode [0x02, s0, s1, d0, d1, q0, q1, q2, q3, a0, a1, a2, a3, f] =
      .ok (.encodeAck (BitVec.ofNat 16 (s0.toNat * 256 + s1.toNat)) (BitVec.ofNat 16 (d0.toNat * 256 + d1.toNat))
        (BitVec.ofNat 32 (q0.toNat * 16777216 + q1.toNat * 65536 + q2.toNat * 256 + q3.toNat))
        (BitVec.ofNat 32 (a0.toNat * 16777216 + a1.toNat * 65536 + a2.toNat * 256 + a3.toNat)) f)) ∧
  (∀ data : List Byte, data.length ≤ Config.maxDecodeLen → decode (0x03 :: data) = .ok (.decode data)) ∧
  (∀ s0 s1 s2 s3 d0 d1 d2 d3 : Byte,
    decode [0x04, s0, s1, s2, s3, d0, d1, d2, d3] =
      .ok (.csum (BitVec.ofNat 32 (s0.toNat * 16777216 + s1.toNat * 65536 + s2.toNat * 256 + s3.toNat))
        (BitVec.ofNat 32 (d0.toNat * 16777216 + d1.toNat * 65536 + d2.toNat * 256 + d3.toNat)))) ∧
  (∀ v0 v1 : Byte, decode [0x05, v0, v1] = .ok (.setcsum (BitVec.ofNat 16 (v0.toNat * 256 + v1.toNat))))

/-- For every well-formed instruction, decoding its packet gives it back: no bit of an encoding is dropped
(30_encoding.md R76, R77, R81). -/
def Obligations.DecodeOfEncodeIsTheInstruction : Prop :=
  ∀ i : Instr, i.wf = true → decode (encode i) = .ok i

/-- A packet has one meaning: whatever instruction it decodes to is well-formed and encodes to that packet, and no other
instruction does (30_encoding.md R76, R80). -/
def Obligations.EncodeOfDecodeIsThePacket : Prop :=
  ∀ (pkt : List Byte) (i : Instr), decode pkt = .ok i →
    i.wf = true ∧ encode i = pkt ∧ ∀ j : Instr, encode j = pkt → j = i

/-- 30_encoding.md R78: a packet for which the rule's check holds runs a command; any other is refused with
ILLEGAL_COMMAND and runs none; a DECODE with fewer than 20 data bytes is well-formed and fails as MALFORMED_SEGMENT. -/
def Obligations.PacketIsACommandExactlyWhenWellFormed : Prop :=
  ∀ (pkt : List Byte) (s : State),
    let wf :=
      1 ≤ pkt.length ∧
      ((pkt[0]? = some 0x01 ∧ pkt.length = 10) ∨ (pkt[0]? = some 0x02 ∧ pkt.length = 14) ∨
        (pkt[0]? = some 0x03 ∧ 1 ≤ pkt.length ∧ pkt.length ≤ 1 + Config.maxDecodeLen) ∨
        (pkt[0]? = some 0x04 ∧ pkt.length = 9) ∨ (pkt[0]? = some 0x05 ∧ pkt.length = 3))
    (wf → ∃ i, decode pkt = .ok i ∧ runPacket pkt s = exec i s) ∧
    (¬ wf → ∃ t, runPacket pkt s = .next t ∧ s.failsAs 2 t) ∧
    (pkt[0]? = some 0x03 → pkt.length < 21 → wf ∧ ∃ t, runPacket pkt s = .next t ∧ t.err = 1)

/-- 60_exceptions.md R141: the four kinds of packet that raise ILLEGAL_COMMAND; no command rule runs, so nothing but ERR and
ERR_SEEN changes. -/
def Obligations.IllegalPacketsRaiseIllegalCommand : Prop :=
  ∀ (pkt : List Byte) (s : State),
    (pkt = [] ∨
      (∃ op ∈ pkt.head?, op.toNat = 0 ∨ 5 < op.toNat) ∨
      (pkt.head? = some 0x01 ∧ pkt.length ≠ 10) ∨ (pkt.head? = some 0x02 ∧ pkt.length ≠ 14) ∨
      (pkt.head? = some 0x04 ∧ pkt.length ≠ 9) ∨ (pkt.head? = some 0x05 ∧ pkt.length ≠ 3) ∨
      (pkt.head? = some 0x03 ∧ Config.maxDecodeLen + 1 < pkt.length)) →
    ∃ t, runPacket pkt s = .next t ∧ s.failsAs 2 t

/-! ## Segment Codec (40_codec.md) -/

/-- 40_codec.md R92: ENCODE runs from every state, whatever HDR_VALID was, writes all 20 bytes of HDR, clears ERR, sets
HDR_VALID and leaves all else; a packet of the wrong length raises ILLEGAL_COMMAND; and the rule's example. -/
def Obligations.EncodeWritesAFreshHeader : Prop :=
  (∀ (sport dport : Half) (seq : Word) (flags : Byte) (s : State),
    ∃ t, exec (.encode sport dport seq flags) s = .next t ∧
      t.hdr.readFrom 0 20 =
        some (bigEndian 2 sport.toNat ++ bigEndian 2 dport.toNat ++ bigEndian 4 seq.toNat ++ [0x00, 0x00, 0x00, 0x00] ++
          [0x50, flags, 0xFF, 0xFF, 0x00, 0x00, 0x00, 0x00]) ∧
      (∀ a, 20 ≤ a → t.hdr.read a = s.hdr.read a) ∧
      t.err = 0 ∧ t.hdrValid = true ∧ t.errSeen = s.errSeen ∧ t.csum = s.csum ∧ t.csumValid = s.csumValid ∧
      s.hostSame t) ∧
  (∀ (pkt : List Byte) (s : State), pkt.head? = some 0x01 → pkt.length ≠ 10 →
    ∃ t, runPacket pkt s = .next t ∧ s.failsAs 2 t) ∧
  (∀ s : State, ∃ t, exec (.encode 54321 80 1000 0x02) s = .next t ∧
    t.hdr.readFrom 0 20 = some [0xD4, 0x31, 0x00, 0x50, 0x00, 0x00, 0x03, 0xE8, 0x00, 0x00, 0x00, 0x00, 0x50, 0x02, 0xFF,
      0xFF, 0x00, 0x00, 0x00, 0x00])

/-- 40_codec.md R93: ENCODE_ACK is ENCODE with its acknowledgement number written; the flags operand is written as it is,
so no flag is set for the caller; a packet of the wrong length raises ILLEGAL_COMMAND; and the rule's example. The rule's
remark on ACKNUM = 0, which the spec marks as its inference, is a statement of its own. -/
def Obligations.EncodeAckWritesAFreshHeader : Prop :=
  (∀ (sport dport : Half) (seq acknum : Word) (flags : Byte) (s : State),
    ∃ t, exec (.encodeAck sport dport seq acknum flags) s = .next t ∧
      t.hdr.readFrom 0 20 =
        some (bigEndian 2 sport.toNat ++ bigEndian 2 dport.toNat ++ bigEndian 4 seq.toNat ++ bigEndian 4 acknum.toNat ++
          [0x50, flags, 0xFF, 0xFF, 0x00, 0x00, 0x00, 0x00]) ∧
      (∀ a, 20 ≤ a → t.hdr.read a = s.hdr.read a) ∧
      t.err = 0 ∧ t.hdrValid = true ∧ t.errSeen = s.errSeen ∧ t.csum = s.csum ∧ t.csumValid = s.csumValid ∧
      s.hostSame t) ∧
  (∀ (pkt : List Byte) (s : State), pkt.head? = some 0x02 → pkt.length ≠ 14 →
    ∃ t, runPacket pkt s = .next t ∧ s.failsAs 2 t) ∧
  (∀ s : State, ∃ t, exec (.encodeAck 54321 80 1001 0x12345679 0x10) s = .next t ∧
    t.hdr.readFrom 0 20 = some [0xD4, 0x31, 0x00, 0x50, 0x00, 0x00, 0x03, 0xE9, 0x12, 0x34, 0x56, 0x79, 0x50, 0x10, 0xFF,
      0xFF, 0x00, 0x00, 0x00, 0x00])

/-- ENCODE_ACK with acknowledgement number 0 does what ENCODE does (a corner case the spec marks as its inference from
40_codec.md R92 and R93). -/
def Obligations.EncodeAckWithZeroIsEncode : Prop :=
  ∀ (sport dport : Half) (seq : Word) (flags : Byte) (s : State),
    exec (.encodeAck sport dport seq 0 flags) s = exec (.encode sport dport seq flags) s

/-- 30_encoding.md R61 and R62, 40_codec.md R104 and R105: bytes 12 and 13 as the three loading commands write them, what
DOFF and FLAGS show of them, and that no named port shows the unnamed bits of either. -/
def Obligations.Bytes12And13AndTheirPorts : Prop :=
  (∀ (sport dport : Half) (seq acknum : Word) (flags : Byte) (s : State),
    (∃ t, exec (.encode sport dport seq flags) s = .next t ∧ t.hdr.read 12 = some 0x50 ∧ t.hdr.read 13 = some flags) ∧
    (∃ t, exec (.encodeAck sport dport seq acknum flags) s = .next t ∧ t.hdr.read 12 = some 0x50 ∧
      t.hdr.read 13 = some flags)) ∧
  (∀ (data : List Byte) (s : State), 20 ≤ data.length →
    ∃ t, exec (.decode data) s = .next t ∧ t.hdr.read 12 = data[12]? ∧ t.hdr.read 13 = data[13]?) ∧
  (∀ (s : State) (v : Byte), s.hdrValid = true → s.hdr.read 12 = some v →
    readPort .doff s = some (v.toNat / 16) ∧ readPort (.raw 12) s = some v.toNat) ∧
  (∀ (s : State) (v : Byte), s.hdrValid = true → s.hdr.read 13 = some v →
    readPort .flags s = some (v.toNat % 64) ∧ readPort (.raw 13) s = some v.toNat) ∧
  (∀ (s : State) (v w : Byte) (p : Port), v.toNat / 16 = w.toNat / 16 → p ≠ .raw 12 →
    readPort p { s with hdr := s.hdr.write 12 v } = readPort p { s with hdr := s.hdr.write 12 w }) ∧
  (∀ (s : State) (v w : Byte) (p : Port), v.toNat % 64 = w.toNat % 64 → p ≠ .raw 13 →
    readPort p { s with hdr := s.hdr.write 13 v } = readPort p { s with hdr := s.hdr.write 13 w })

/-- 40_codec.md R96: DECODE of at least 20 bytes loads the first 20, clears ERR and sets HDR_VALID, whatever the bytes are;
of fewer it is a MALFORMED_SEGMENT, HDR kept and HDR_VALID cleared; of more than MAX_DECODE_LEN, delivered as a packet, it
is an ILLEGAL_COMMAND; and the rule's example through the ports. -/
def Obligations.DecodeLoadsTheHeader : Prop :=
  (∀ (data : List Byte) (s : State), 20 ≤ data.length →
    ∃ t, exec (.decode data) s = .next t ∧
      t.hdr.readFrom 0 20 = some (data.take 20) ∧ (∀ a, 20 ≤ a → t.hdr.read a = s.hdr.read a) ∧
      t.err = 0 ∧ t.hdrValid = true ∧ t.errSeen = s.errSeen ∧ t.csum = s.csum ∧ t.csumValid = s.csumValid ∧
      s.hostSame t) ∧
  (∀ (data : List Byte) (s : State), data.length < 20 →
    ∃ t, exec (.decode data) s = .next t ∧ t.hdr = s.hdr ∧ t.err = 1 ∧ t.errSeen = true ∧ t.hdrValid = false ∧
      t.csum = s.csum ∧ t.csumValid = s.csumValid ∧ s.hostSame t) ∧
  (∀ (data : List Byte) (s : State), Config.maxDecodeLen < data.length →
    ∃ t, runPacket (0x03 :: data) s = .next t ∧ s.failsAs 2 t) ∧
  (∀ s : State, ∃ t, exec (.decode [0x00, 0x50, 0xD4, 0x31, 0x12, 0x34, 0x56, 0x78, 0x00, 0x00, 0x03, 0xE9, 0x50, 0x12, 0xFF,
      0xFF, 0x8A, 0x46, 0x00, 0x00]) s = .next t ∧
    readPort .srcPort t = some 80 ∧ readPort .dstPort t = some 54321 ∧ readPort .seq t = some 0x12345678 ∧
    readPort .acknum t = some 1001 ∧ readPort .flags t = some 0x12 ∧ readPort .checksum t = some 0x8A46)

/-- DECODE looks at nothing past the first 20 bytes, and a DECODE of the header's own 20 bytes reproduces HDR exactly, as
data (40_codec.md section 3; the second clause is one the spec marks as its inference). -/
def Obligations.DecodeIgnoresTheTailAndReproducesHdr : Prop :=
  (∀ (data tail : List Byte) (s : State), data.length = 20 →
    exec (.decode (data ++ tail)) s = exec (.decode data) s) ∧
  (∀ (s : State) (header : List Byte), s.Inv → s.hdr.readFrom 0 20 = some header →
    ∃ t, exec (.decode header) s = .next t ∧ t.hdr = s.hdr)

/-- 40_codec.md R98: with a segment, SETCSUM writes the value into bytes 16 and 17, clears ERR and leaves every other byte
and register; without one it raises NO_SEGMENT; a packet of the wrong length raises ILLEGAL_COMMAND; and the example. -/
def Obligations.SetcsumWritesTheChecksumField : Prop :=
  (∀ (value : Half) (s : State), s.hdrValid = true →
    ∃ t, exec (.setcsum value) s = .next t ∧
      t.hdr.read 16 = some (BitVec.ofNat 8 (value.toNat / 256)) ∧ t.hdr.read 17 = some (BitVec.ofNat 8 value.toNat) ∧
      (∀ a, a ≠ 16 → a ≠ 17 → t.hdr.read a = s.hdr.read a) ∧
      t.err = 0 ∧ t.hdrValid = s.hdrValid ∧ t.errSeen = s.errSeen ∧ t.csum = s.csum ∧ t.csumValid = s.csumValid ∧
      s.hostSame t) ∧
  (∀ (value : Half) (s : State), s.hdrValid = false → ∃ t, exec (.setcsum value) s = .next t ∧ s.failsAs 3 t) ∧
  (∀ (pkt : List Byte) (s : State), pkt.head? = some 0x05 → pkt.length ≠ 3 →
    ∃ t, runPacket pkt s = .next t ∧ s.failsAs 2 t) ∧
  (∀ s : State, s.hdrValid = true → ∃ t, exec (.setcsum 0xF303) s = .next t ∧
    t.hdr.read 16 = some 0xF3 ∧ t.hdr.read 17 = some 0x03)

/-! ## Read ports (40_codec.md section 5) -/

/-- 40_codec.md R100 to R103 and R115: what the 16- and 32-bit address ports and the raw ports read of the header's
bytes. -/
def Obligations.FieldPortsReadBigEndian : Prop :=
  ∀ (s : State) (b : Fin 20 → Byte), s.hdrValid = true → (∀ i, s.hdr.read i.val = some (b i)) →
    readPort .srcPort s = some ((b 0).toNat * 256 + (b 1).toNat) ∧
    readPort .dstPort s = some ((b 2).toNat * 256 + (b 3).toNat) ∧
    readPort .seq s =
      some ((((b 4).toNat * 256 + (b 5).toNat) * 256 + (b 6).toNat) * 256 + (b 7).toNat) ∧
    readPort .acknum s =
      some ((((b 8).toNat * 256 + (b 9).toNat) * 256 + (b 10).toNat) * 256 + (b 11).toNat) ∧
    ∀ i, readPort (.raw i) s = some (b i).toNat

/-- 40_codec.md R106 to R111 and 30_encoding.md R63: each flag port reads its bit of byte 13. -/
def Obligations.FlagPortsReadTheirBit : Prop :=
  ∀ (s : State) (v : Byte), s.hdrValid = true → s.hdr.read 13 = some v →
    readPort (.flag .urg) s = some (v.toNat / 2 ^ 5 % 2) ∧
    readPort (.flag .ack) s = some (v.toNat / 2 ^ 4 % 2) ∧
    readPort (.flag .psh) s = some (v.toNat / 2 ^ 3 % 2) ∧
    readPort (.flag .rst) s = some (v.toNat / 2 ^ 2 % 2) ∧
    readPort (.flag .syn) s = some (v.toNat / 2 % 2) ∧
    readPort (.flag .fin) s = some (v.toNat % 2)

/-- 40_codec.md R112 to R114: WINDOW, CHECKSUM and URGPTR read the fields at 14, 16 and 18; what they show after each
command that writes HDR. -/
def Obligations.WindowChecksumAndUrgptrPorts : Prop :=
  (∀ (s : State) (b : Fin 20 → Byte), s.hdrValid = true → (∀ i, s.hdr.read i.val = some (b i)) →
    readPort .window s = some ((b 14).toNat * 256 + (b 15).toNat) ∧
    readPort .checksum s = some ((b 16).toNat * 256 + (b 17).toNat) ∧
    readPort .urgptr s = some ((b 18).toNat * 256 + (b 19).toNat)) ∧
  (∀ (sport dport : Half) (seq acknum : Word) (flags : Byte) (s : State),
    (∃ t, exec (.encode sport dport seq flags) s = .next t ∧ readPort .window t = some 0xFFFF ∧
      readPort .checksum t = some 0 ∧ readPort .urgptr t = some 0) ∧
    (∃ t, exec (.encodeAck sport dport seq acknum flags) s = .next t ∧ readPort .window t = some 0xFFFF ∧
      readPort .checksum t = some 0 ∧ readPort .urgptr t = some 0)) ∧
  (∀ (value : Half) (s : State), s.hdrValid = true →
    ∃ t, exec (.setcsum value) s = .next t ∧ readPort .checksum t = some value.toNat) ∧
  (∀ (data : Fin 20 → Byte) (tail : List Byte) (s : State),
    ∃ t, exec (.decode (List.ofFn data ++ tail)) s = .next t ∧
      readPort .window t = some ((data 14).toNat * 256 + (data 15).toNat) ∧
      readPort .checksum t = some ((data 16).toNat * 256 + (data 17).toNat) ∧
      readPort .urgptr t = some ((data 18).toNat * 256 + (data 19).toNat))

/-- 40_codec.md R116: while HDR_VALID is 0 every port that shows HDR faults; while CSUM_VALID is 0 CSUM_OUT does; STATUS_OUT
always has a value. -/
def Obligations.PortsWithoutAValueFault : Prop :=
  (∀ (s : State) (p : Port), s.hdrValid = false → p ≠ .csumOut → p ≠ .statusOut →
    runEvent (.read p) s = .fault (.portHasNoValue p)) ∧
  (∀ s : State, s.csumValid = false → runEvent (.read .csumOut) s = .fault (.portHasNoValue .csumOut)) ∧
  (∀ s : State, ∃ t v, runEvent (.read .statusOut) s = .next t ∧ readPort .statusOut s = some v)

/-- 10_state.md R27: a read of a port that has a value completes, with a value of the port's width, changes nothing in TCPHC
and can be repeated, at every port, with the same result. How HOST's side records the value is a statement of its own. -/
def Obligations.ReadsChangeNothing : Prop :=
  ∀ (s : State) (p : Port) (v : Nat), readPort p s = some v →
    ∃ t, runEvent (.read p) s = .next t ∧
      v < 2 ^ (match p with
        | .srcPort | .dstPort | .window | .checksum | .urgptr | .csumOut => 16
        | .seq | .acknum => 32
        | .doff => 4
        | .flags => 6
        | .flag _ => 1
        | .raw _ | .statusOut => 8) ∧
      t.hdr = s.hdr ∧ t.csum = s.csum ∧ t.status = s.status ∧ ∀ q, readPort q t = readPort q s

/-- The record of reads (the model's choice, log entry 3): a read of a port that has a value appends the port and the value,
and leaves HOST's deliveries (log entry 1); a command and a reset (log entry 6) leave the record. -/
def Obligations.ReadsAreRecorded : Prop :=
  (∀ (s : State) (p : Port) (v : Nat), readPort p s = some v →
    ∃ t, runEvent (.read p) s = .next t ∧ t.returned = s.returned ++ [(p, v)] ∧ t.inbox = s.inbox) ∧
  (∀ (e : Event) (s t : State), (∀ p, e ≠ .read p) → runEvent e s = .next t → t.returned = s.returned)

/-- The mixed-width views of HDR agree byte for byte (20_memory.md section 2; the spec marks the rule as its inference). -/
def Obligations.MixedWidthViewsAgree : Prop :=
  (∀ (s : State) (p : Port) (o : Fin 19) (v : Nat),
    (p, o) ∈ ([(.srcPort, 0), (.dstPort, 2), (.window, 14), (.checksum, 16), (.urgptr, 18)] : List (Port × Fin 19)) →
    readPort p s = some v →
    readPort (.raw o.castSucc) s = some (v / 256) ∧ readPort (.raw o.succ) s = some (v % 256)) ∧
  (∀ (s : State) (v : Nat), readPort .seq s = some v →
    readPort (.raw 4) s = some (v / 16777216) ∧ readPort (.raw 5) s = some (v / 65536 % 256) ∧
    readPort (.raw 6) s = some (v / 256 % 256) ∧ readPort (.raw 7) s = some (v % 256)) ∧
  (∀ (s : State) (v : Nat), readPort .acknum s = some v →
    readPort (.raw 8) s = some (v / 16777216) ∧ readPort (.raw 9) s = some (v / 65536 % 256) ∧
    readPort (.raw 10) s = some (v / 256 % 256) ∧ readPort (.raw 11) s = some (v % 256)) ∧
  (∀ (s : State) (v : Nat), readPort .doff s = some v → ∃ r, readPort (.raw 12) s = some r ∧ r / 16 = v) ∧
  (∀ (s : State) (v : Nat), readPort .flags s = some v → ∃ r, readPort (.raw 13) s = some r ∧ r % 64 = v)

/-- The field round trip, for FLAGS below 0x40: after ENCODE or ENCODE_ACK every field port shows its operand or its
constant, and still does after a DECODE of the 20 raw bytes (40_codec.md section 6; the spec marks the rule as its
inference). -/
def Obligations.EncodedFieldsReadBack : Prop :=
  ∀ (sport dport : Half) (seq acknum : Word) (flags : Byte) (s : State), flags.toNat < 0x40 →
    (∃ t header u, exec (.encode sport dport seq flags) s = .next t ∧ t.showsFields sport dport seq 0 flags ∧
      t.hdr.readFrom 0 20 = some header ∧ exec (.decode header) t = .next u ∧ u.showsFields sport dport seq 0 flags) ∧
    (∃ t header u, exec (.encodeAck sport dport seq acknum flags) s = .next t ∧ t.showsFields sport dport seq acknum flags ∧
      t.hdr.readFrom 0 20 = some header ∧ exec (.decode header) t = .next u ∧ u.showsFields sport dport seq acknum flags)

/-- Flag independence: after ENCODE with the OR of a set of flags' masks, each flag port reads 1 exactly when its flag is in
the set (40_codec.md section 6; the spec marks the rule as its inference). -/
def Obligations.FlagsAreIndependent : Prop :=
  ∀ (set : List Flag) (sport dport : Half) (seq : Word) (s : State),
    ∃ t, exec (.encode sport dport seq (flagByte set)) s = .next t ∧
      ∀ f, readPort (.flag f) t = some (if f ∈ set then 1 else 0)

/-! ## Checksum Engine (41_checksum.md) -/

/-- 41_checksum.md R120: `ocsum` of any byte sequence is the complement of its 16-bit big-endian word sum, an odd trailing
byte counted as a high byte, folded exactly as long as it exceeds 0xFFFF. -/
def Obligations.OcsumIsTheFoldedWordSum : Prop :=
  ∀ bytes : List Byte,
    let sum := (∑ k ∈ Finset.range (bytes.length / 2),
        ((bytes.getD (2 * k) 0).toNat * 256 + (bytes.getD (2 * k + 1) 0).toNat)) +
      (if bytes.length % 2 = 1 then (bytes.getD (bytes.length - 1) 0).toNat * 256 else 0)
    let after (n : Nat) := (fun x : Nat => (x &&& 0xFFFF) + (x >>> 16))^[n] sum
    ∃ turns, (∀ j, j < turns → 0xFFFF < after j) ∧ after turns ≤ 0xFFFF ∧
      (ocsum bytes).toNat = 0xFFFF - after turns

/-- The bounds on the fold loop: each turn above 0xFFFF lowers the sum; CSUM's 32-byte buffer sums to at most 0xFFFF0, one
turn leaves at most 0x1000E and two at most 0xFFFF; none, one and two turns all occur (41_checksum.md section 1; the spec
marks the rule as its inference). -/
def Obligations.CsumFoldsAtMostTwice : Prop :=
  (∀ sum, 0xFFFF < sum → foldOnce sum < sum) ∧
  (∀ (srcip dstip : Word) (header : List Byte), header.length = 20 →
    wordSum (checksumBuffer srcip dstip header) ≤ 0xFFFF0) ∧
  (∀ sum, sum ≤ 0xFFFF0 → foldOnce sum ≤ 0x1000E ∧ foldOnce (foldOnce sum) ≤ 0xFFFF) ∧
  wordSum (checksumBuffer 0 0 (List.replicate 20 0)) = 0x1A ∧
  wordSum (checksumBuffer 0xC0A8D703 0x8EFABDCE (headerImage 54321 80 1000 0 0x02)) = 0x50CF7 ∧
  foldOnce 0x50CF7 = 0x0CFC ∧
  wordSum (checksumBuffer 0xFFFFFFFF 0xFFFFFFFF (headerImage 0xFFFF 0xFFFF 0xFFFFAFA7 0xFFFFFFFF 0x3F)) = 0xAFFF6 ∧
  foldOnce 0xAFFF6 = 0x10000 ∧ foldOnce 0x10000 = 1

/-- The closed forms of the fold and their consequences: the order of the words does not matter, whatever permutation of
them it is and whatever odd byte or further bytes follow, nor does the order of any two parts of whole words within a
buffer; and folding early changes nothing (41_checksum.md section 4; the spec marks the rule as its inference). -/
def Obligations.FoldHasItsClosedForm : Prop :=
  carryFold 0 = 0 ∧
  (∀ sum, 0 < sum → carryFold sum = 1 + (sum - 1) % 0xFFFF) ∧
  (∀ a b, carryFold (a + b) = carryFold (carryFold a + b)) ∧
  (∀ bytes : List Byte, (ocsum bytes).toNat = 0xFFFF - carryFold (wordSum bytes)) ∧
  (∀ (words words' : List (Byte × Byte)) (tail : List Byte), words.Perm words' →
    ocsum (words.flatMap (fun w => [w.1, w.2]) ++ tail) = ocsum (words'.flatMap (fun w => [w.1, w.2]) ++ tail)) ∧
  (∀ p u v q : List Byte, p.length % 2 = 0 → u.length % 2 = 0 → v.length % 2 = 0 →
    ocsum (p ++ u ++ v ++ q) = ocsum (p ++ v ++ u ++ q))

/-- 30_encoding.md R70 and R72: the 12 bytes of the pseudo-header, and the checksum buffer's 16 words. -/
def Obligations.PseudoHeaderAndBufferLayout : Prop :=
  ∀ (srcip dstip : Word) (header : List Byte), header.length = 20 →
    let word (k : Nat) : Nat := ((checksumBuffer srcip dstip header).getD (2 * k) 0).toNat * 256 +
      ((checksumBuffer srcip dstip header).getD (2 * k + 1) 0).toNat
    pseudoHeader srcip dstip = bigEndian 4 srcip.toNat ++ bigEndian 4 dstip.toNat ++ [0x00, 0x06, 0x00, 0x14] ∧
    (pseudoHeader srcip dstip).length = 12 ∧
    checksumBuffer srcip dstip header = pseudoHeader srcip dstip ++ header ∧
    (checksumBuffer srcip dstip header).length = 32 ∧
    word 0 = srcip.toNat / 65536 ∧ word 1 = srcip.toNat % 65536 ∧
    word 2 = dstip.toNat / 65536 ∧ word 3 = dstip.toNat % 65536 ∧
    word 4 = 0x0006 ∧ word 5 = 0x0014 ∧
    (∀ k, k < 10 → word (6 + k) = (header.getD (2 * k) 0).toNat * 256 + (header.getD (2 * k + 1) 0).toNat) ∧
    word 14 = (header.getD 16 0).toNat * 256 + (header.getD 17 0).toNat

/-- 41_checksum.md R122 and R123: with a segment, CSUM writes `ocsum` of the pseudo-header followed by the header's 20
bytes as they stand, clears ERR, sets CSUM_VALID and changes nothing else, HDR in particular; without one it raises
NO_SEGMENT; a packet of the wrong length raises ILLEGAL_COMMAND; and the rule's example. The rule's remark on the range of
the result, which is the inference of R129, is a statement of its own. -/
def Obligations.CsumWritesTheChecksum : Prop :=
  (∀ (srcip dstip : Word) (s : State) (header : List Byte), s.hdrValid = true → s.hdr.readFrom 0 20 = some header →
    ∃ t, exec (.csum srcip dstip) s = .next t ∧
      t.csum = ocsum (bigEndian 4 srcip.toNat ++ bigEndian 4 dstip.toNat ++ [0x00, 0x06, 0x00, 0x14] ++ header) ∧
      t.err = 0 ∧ t.csumValid = true ∧ t.hdrValid = s.hdrValid ∧ t.errSeen = s.errSeen ∧ t.hdr = s.hdr ∧
      s.hostSame t) ∧
  (∀ (srcip dstip : Word) (s : State), s.hdrValid = false →
    ∃ t, exec (.csum srcip dstip) s = .next t ∧ s.failsAs 3 t) ∧
  (∀ (pkt : List Byte) (s : State), pkt.head? = some 0x04 → pkt.length ≠ 9 →
    ∃ t, runPacket pkt s = .next t ∧ s.failsAs 2 t) ∧
  (∀ s : State, s.hdrValid = true →
    s.hdr.readFrom 0 20 = some [0xD4, 0x31, 0x00, 0x50, 0x00, 0x00, 0x03, 0xE8, 0x00, 0x00, 0x00, 0x00, 0x50, 0x02, 0xFF,
      0xFF, 0x00, 0x00, 0x00, 0x00] →
    ∃ t, exec (.csum 0xC0A8D703 0x8EFABDCE) s = .next t ∧ t.csum = 0xF303)

/-- A CSUM result is never 0xFFFF and can be 0x0000 (41_checksum.md section 4; the spec marks the rule as its
inference). -/
def Obligations.CsumResultIsNeverFFFF : Prop :=
  (∀ (srcip dstip : Word) (s t : State), s.hdrValid = true → exec (.csum srcip dstip) s = .next t → t.csum ≠ 0xFFFF) ∧
  (∀ s : State, s.hdrValid = true → s.hdr.readFrom 0 20 = some (headerImage 54321 80 63211 0 0x02) →
    ∃ t, exec (.csum 0xC0A8D703 0x8EFABDCE) s = .next t ∧ t.csum = 0x0000)

/-- Checksum validity: with the CHECKSUM field 0, computing the checksum, inserting it and computing again with the same
addresses gives 0x0000 (41_checksum.md section 3; the spec marks the rule as its inference). -/
def Obligations.InsertedChecksumVerifies : Prop :=
  ∀ (srcip dstip : Word) (s : State), s.Inv → s.hdrValid = true → readPort .checksum s = some 0 →
    ∃ t1 t2 t3, exec (.csum srcip dstip) s = .next t1 ∧ exec (.setcsum t1.csum) t1 = .next t2 ∧
      exec (.csum srcip dstip) t2 = .next t3 ∧ t3.csum = 0x0000 ∧ t3.err = 0

/-- Checksum round trip: inserting the checksum and zeroing the field again restores HDR, as data, and computing again gives
the first checksum (41_checksum.md section 3; the spec marks the rule as its inference). -/
def Obligations.ChecksumInsertedAndZeroedComesBack : Prop :=
  ∀ (srcip dstip : Word) (s : State), s.Inv → s.hdrValid = true → readPort .checksum s = some 0 →
    ∃ t1 t2 t3 t4, exec (.csum srcip dstip) s = .next t1 ∧ exec (.setcsum t1.csum) t1 = .next t2 ∧
      exec (.setcsum 0) t2 = .next t3 ∧ t3.hdr = s.hdr ∧ exec (.csum srcip dstip) t3 = .next t4 ∧ t4.csum = t1.csum

/-- Determinism: two states that agree on the 20 bytes of HDR, and maybe on nothing else, give the same checksum for the
same addresses (41_checksum.md section 3; the spec marks the rule as its inference). -/
def Obligations.CsumDependsOnHdrAndAddressesAlone : Prop :=
  ∀ (srcip dstip : Word) (s s' : State), s.Inv → s'.Inv → s.hdrValid = true → s'.hdrValid = true →
    (∀ i : Fin 20, s.hdr.read i.val = s'.hdr.read i.val) →
    ∃ t t', exec (.csum srcip dstip) s = .next t ∧ exec (.csum srcip dstip) s' = .next t' ∧ t.csum = t'.csum

/-- Swapping the two addresses never changes what CSUM does, in any state (95_test_vectors.md V17, the spec's inference from
41_checksum.md R122 and R128). -/
def Obligations.CsumIsSymmetricInItsAddresses : Prop :=
  ∀ (srcip dstip : Word) (s : State), exec (.csum srcip dstip) s = exec (.csum dstip srcip) s

/-! ## STATUS and the errors (10_state.md, 60_exceptions.md) -/

/-- 10_state.md R26: STATUS bit 7 is hardwired to 0 and nothing sets it; STATUS_OUT shows the four fields at their bits
(10_state.md R23) and so a number below 128, in every state. -/
def Obligations.StatusBit7IsHardwiredZero : Prop :=
  (∀ s : State, ∃ v, readPort .statusOut s = some v ∧ v < 128 ∧
    v = s.err.toNat + 16 * s.errSeen.toNat + 32 * s.hdrValid.toNat + 64 * s.csumValid.toNat) ∧
  State.reset.status.getLsbD 7 = false ∧
  (∀ (e : Event) (s t : State), s.status.getLsbD 7 = false → runEvent e s = .next t → t.status.getLsbD 7 = false) ∧
  (∀ (i : Instr) (s t : State), exec i s = .next t → t.status.getLsbD 7 = false)

/-- 10_state.md R24 and 60_exceptions.md R145: every command writes ERR, with the code of its outcome, the packet checked
first and the command's own check after it; a read does not write ERR; reset makes it 0. -/
def Obligations.ErrHoldsTheLastCommandsOutcome : Prop :=
  (∀ (pkt : List Byte) (s t : State), runPacket pkt s = .next t →
    t.err = (match decode pkt with
      | .error _ => 2
      | .ok (.encode _ _ _ _) => 0
      | .ok (.encodeAck _ _ _ _ _) => 0
      | .ok (.decode data) => if data.length < 20 then 1 else 0
      | .ok (.csum _ _) => if s.hdrValid then 0 else 3
      | .ok (.setcsum _) => if s.hdrValid then 0 else 3)) ∧
  (∀ (p : Port) (s t : State), runEvent (.read p) s = .next t → t.err = s.err) ∧
  (∀ s t : State, runEvent .reset s = .next t → t.err = 0) ∧ State.reset.err = 0

/-- 10_state.md R25: ERR_SEEN is sticky: a command that ends with an error sets it, a successful one and a read leave it,
and only reset clears it. -/
def Obligations.ErrSeenIsSticky : Prop :=
  (∀ (pkt : List Byte) (s t : State), runPacket pkt s = .next t →
    (t.err ≠ 0 → t.errSeen = true) ∧ (t.err = 0 → t.errSeen = s.errSeen)) ∧
  (∀ (e : Event) (s t : State), runEvent e s = .next t → s.errSeen = true → e ≠ .reset → t.errSeen = true) ∧
  (∀ s t : State, runEvent .reset s = .next t → t.errSeen = false)

/-- "No error recorded" is no error: if ERR_SEEN is 0 at the end of a run of deliveries, every command since the last reset
ended with ERR 0 (what 10_state.md R25 says the bit is for, and 70_reset_and_hazards.md R169 uses it for). -/
def Obligations.NoErrorRecordedMeansEveryCommandSucceeded : Prop :=
  ∀ (before after : List Event) (pkt : List Byte) (s t u : State),
    runEvents (before ++ [.cmd pkt]) s = .next t → runEvents after t = .next u →
    Event.reset ∉ after → u.noErrorRecorded = true → t.err = 0

/-- 60_exceptions.md R143 and R144: a command that raises an error writes ERR and ERR_SEEN and nothing else, but that a
MALFORMED_SEGMENT also clears HDR_VALID; after that the HDR ports have no value and CSUM and SETCSUM raise NO_SEGMENT. -/
def Obligations.ErrorsWriteNothingElse : Prop :=
  (∀ (pkt : List Byte) (s t : State), runPacket pkt s = .next t → t.err ≠ 0 →
    t.errSeen = true ∧ t.hdr = s.hdr ∧ t.csum = s.csum ∧ t.csumValid = s.csumValid ∧ s.hostSame t ∧
    (t.err ≠ 1 → t.hdrValid = s.hdrValid) ∧ (t.err = 1 → t.hdrValid = false)) ∧
  (∀ (data : List Byte) (s : State), data.length < 20 →
    ∃ t, runPacket (0x03 :: data) s = .next t ∧ t.err = 1 ∧ t.errSeen = true ∧ t.hdrValid = false ∧ t.hdr = s.hdr ∧
      (∀ p, p ≠ .csumOut → p ≠ .statusOut → readPort p t = none) ∧
      (∀ srcip dstip, ∃ u, exec (.csum srcip dstip) t = .next u ∧ u.err = 3) ∧
      (∀ value, ∃ u, exec (.setcsum value) t = .next u ∧ u.err = 3))

/-- 40_codec.md R91: a command that does not raise ends with ERR 0 and leaves ERR_SEEN; HDR_VALID changes only by ENCODE,
ENCODE_ACK and DECODE, and CSUM_VALID only by CSUM. The conditions are those on which the command's rule raises nothing; that
HDR is written is so in every state with HDR_VALID 1 that meets `State.Inv`. In the last clause, no other end has ERR 0. -/
def Obligations.SuccessWritesOnlyItsOwnValidBits : Prop :=
  let succeeds (i : Instr) (s : State) : Prop :=
    match i with
    | .encode _ _ _ _ | .encodeAck _ _ _ _ _ => True
    | .decode data => 20 ≤ data.length
    | .csum _ _ => s.hdrValid = true ∧ s.hdrWritten = true
    | .setcsum _ => s.hdrValid = true
  (∀ (i : Instr) (s : State), succeeds i s →
    ∃ t, exec i s = .next t ∧ t.err = 0 ∧ t.errSeen = s.errSeen ∧
      (match i with
        | .encode _ _ _ _ | .encodeAck _ _ _ _ _ | .decode _ => t.hdrValid = true ∧ t.csumValid = s.csumValid
        | .csum _ _ => t.hdrValid = s.hdrValid ∧ t.csumValid = true
        | .setcsum _ => t.hdrValid = s.hdrValid ∧ t.csumValid = s.csumValid)) ∧
  (∀ (i : Instr) (s t : State), exec i s = .next t → t.err = 0 → succeeds i s)

/-- 60_exceptions.md R142: CSUM and SETCSUM raise NO_SEGMENT exactly while HDR_VALID is 0, which is so after reset and after
a failed DECODE, until an ENCODE, an ENCODE_ACK or a DECODE of at least 20 bytes, each of which ends it, and no other
delivery does. -/
def Obligations.NoSegmentIsRaisedWithoutASegment : Prop :=
  (∀ (srcip dstip : Word) (value : Half) (s : State), s.hdrValid = false →
    (∃ t, exec (.csum srcip dstip) s = .next t ∧ s.failsAs 3 t) ∧
    (∃ t, exec (.setcsum value) s = .next t ∧ s.failsAs 3 t)) ∧
  (∀ (i : Instr) (s t : State), exec i s = .next t → t.err = 3 →
    s.hdrValid = false ∧ ((∃ a b, i = .csum a b) ∨ ∃ v, i = .setcsum v)) ∧
  (∀ s : State, s.assertReset.hdrValid = false) ∧ State.reset.hdrValid = false ∧
  (∀ (data : List Byte) (s : State), data.length < 20 → ∃ t, exec (.decode data) s = .next t ∧ t.hdrValid = false) ∧
  (∀ (sport dport : Half) (seq acknum : Word) (flags : Byte) (data : List Byte) (s : State), 20 ≤ data.length →
    (∃ t, exec (.encode sport dport seq flags) s = .next t ∧ t.hdrValid = true) ∧
    (∃ t, exec (.encodeAck sport dport seq acknum flags) s = .next t ∧ t.hdrValid = true) ∧
    (∃ t, exec (.decode data) s = .next t ∧ t.hdrValid = true)) ∧
  (∀ (e : Event) (s t : State), runEvent e s = .next t → s.hdrValid = false → t.hdrValid = true →
    ∃ pkt i, e = .cmd pkt ∧ decode pkt = .ok i ∧
      ((∃ a b c d, i = .encode a b c d) ∨ (∃ a b c d f, i = .encodeAck a b c d f) ∨
        ∃ data, i = .decode data ∧ 20 ≤ data.length))

/-- 10_state.md R21: what sets and clears HDR_VALID, and that CSUM and SETCSUM and reads leave it; while it is 0, CSUM and
SETCSUM raise NO_SEGMENT and every port that shows HDR faults. -/
def Obligations.HdrValidLifetime : Prop :=
  (∀ (sport dport : Half) (seq acknum : Word) (flags : Byte) (data : List Byte) (s : State), 20 ≤ data.length →
    (∃ t, exec (.encode sport dport seq flags) s = .next t ∧ t.hdrValid = true) ∧
    (∃ t, exec (.encodeAck sport dport seq acknum flags) s = .next t ∧ t.hdrValid = true) ∧
    (∃ t, exec (.decode data) s = .next t ∧ t.hdrValid = true)) ∧
  (∀ (data : List Byte) (s : State), data.length < 20 → ∃ t, exec (.decode data) s = .next t ∧ t.hdrValid = false) ∧
  (∀ s : State, ∃ t, runEvent .reset s = .next t ∧ t.hdrValid = false) ∧
  (∀ (e : Event) (s t : State), runEvent e s = .next t → t.hdrValid ≠ s.hdrValid →
    e = .reset ∨ ∃ pkt i, e = .cmd pkt ∧ decode pkt = .ok i ∧
      ((∃ a b c d, i = .encode a b c d) ∨ (∃ a b c d f, i = .encodeAck a b c d f) ∨ ∃ d, i = .decode d)) ∧
  (∀ s : State, s.hdrValid = false →
    (∀ a b, ∃ t, exec (.csum a b) s = .next t ∧ t.err = 3) ∧ (∀ v, ∃ t, exec (.setcsum v) s = .next t ∧ t.err = 3) ∧
    ∀ p, p ≠ .csumOut → p ≠ .statusOut → runEvent (.read p) s = .fault (.portHasNoValue p))

/-- 10_state.md R22 and 70_reset_and_hazards.md R166: CSUM and CSUM_VALID are written only by a successful CSUM and by reset,
so after any other command CSUM_OUT still reads what it read. -/
def Obligations.CsumRegisterLifetime : Prop :=
  (∀ (srcip dstip : Word) (header : List Byte) (s t : State), s.hdr.readFrom 0 20 = some header →
    exec (.csum srcip dstip) s = .next t → t.err = 0 →
    t.csumValid = true ∧ t.csum = ocsum (checksumBuffer srcip dstip header)) ∧
  (∀ (srcip dstip : Word) (s t : State), exec (.csum srcip dstip) s = .next t → t.err ≠ 0 →
    t.csum = s.csum ∧ t.csumValid = s.csumValid) ∧
  (∀ (i : Instr) (s t : State), (∀ a b, i ≠ .csum a b) → exec i s = .next t →
    t.csum = s.csum ∧ t.csumValid = s.csumValid ∧ readPort .csumOut t = readPort .csumOut s) ∧
  (∀ (e : Event) (s t : State), runEvent e s = .next t → e ≠ .reset → s.csumValid = true → t.csumValid = true) ∧
  (∀ (e : Event) (s t : State), runEvent e s = .next t → s.csumValid = false → t.csumValid = true →
    ∃ pkt srcip dstip, e = .cmd pkt ∧ decode pkt = .ok (.csum srcip dstip) ∧ t.err = 0) ∧
  (∀ s : State, s.csumValid = false → readPort .csumOut s = none) ∧
  (∀ s : State, s.csumValid = true → readPort .csumOut s = some s.csum.toNat) ∧
  (∀ s : State, s.assertReset.csumValid = false) ∧ State.reset.csumValid = false

/-- What each command may write and what it leaves, from every state: the write matrix (10_state.md section 5; the spec marks
the rule as its inference). The offsets of HDR a command stores to are 0..19 for the three that load a header and 16 and 17
for SETCSUM. -/
def Obligations.CommandsLeaveAllElseUnchanged : Prop :=
  ∀ (i : Instr) (s t : State), exec i s = .next t →
    s.hostSame t ∧
    (match i with
      | .encode _ _ _ _ | .encodeAck _ _ _ _ _ =>
        t.csum = s.csum ∧ t.csumValid = s.csumValid ∧ t.errSeen = s.errSeen ∧
        ∀ a, 20 ≤ a → t.hdr.read a = s.hdr.read a
      | .decode data =>
        t.csum = s.csum ∧ t.csumValid = s.csumValid ∧ (20 ≤ data.length → t.errSeen = s.errSeen) ∧
        (data.length < 20 → t.hdr = s.hdr) ∧ ∀ a, 20 ≤ a → t.hdr.read a = s.hdr.read a
      | .csum _ _ =>
        t.hdr = s.hdr ∧ t.hdrValid = s.hdrValid ∧ (s.hdrValid = true → t.errSeen = s.errSeen) ∧
        (s.hdrValid = false → t.csum = s.csum ∧ t.csumValid = s.csumValid)
      | .setcsum _ =>
        t.csum = s.csum ∧ t.csumValid = s.csumValid ∧ t.hdrValid = s.hdrValid ∧
        (s.hdrValid = true → t.errSeen = s.errSeen) ∧ (s.hdrValid = false → t.hdr = s.hdr) ∧
        ∀ a, a ≠ 16 → a ≠ 17 → t.hdr.read a = s.hdr.read a)

/-! ## Reset and the whole machine (70_reset_and_hazards.md, 00_scope.md) -/

/-- 70_reset_and_hazards.md R160: after reset, STATUS_OUT reads 0x00, every byte of HDR is without a value, and every field
port and CSUM_OUT has no value; so it is of the machine's first state. -/
def Obligations.ResetLeavesNoValues : Prop :=
  ∀ s : State,
    (∃ t, runEvent .reset s = .next t ∧ readPort .statusOut t = some 0x00 ∧ (∀ o, t.hdr.read o = none) ∧
      ∀ p, p ≠ .statusOut → readPort p t = none) ∧
    readPort .statusOut State.reset = some 0x00 ∧ (∀ o, State.reset.hdr.read o = none) ∧
    ∀ p, p ≠ .statusOut → readPort p State.reset = none

/-- 70_reset_and_hazards.md R161: reset may come in any state and keeps nothing of it but HOST's side, which is not TCPHC's;
it leaves the power-on state; two resets in a row leave the same state as one. The number the field csum holds there is the
model's (log entry 5), and no clause depends on which it is. -/
def Obligations.ResetKeepsNothingAndRepeats : Prop :=
  (∀ s : State, ∃ t, runEvent .reset s = .next t) ∧
  (∀ s s' : State, s.hostSame s' → runEvent .reset s' = runEvent .reset s) ∧
  (∀ s : State, s.hostSame State.reset → runEvent .reset s = .next State.reset) ∧
  (∀ s : State, runEvents [.reset, .reset] s = runEvents [.reset] s)

/-- The invariant holds right after reset. -/
def Obligations.InvHoldsAtReset : Prop := State.reset.Inv

/-- Every step keeps the invariant, from every state that meets it: HDR stays in canonical form within its 20 bytes and is
all written or not at all, the valid bits mean what they say, ERR stays a legal code, bit 7 stays 0 (10_state.md sections 1
to 5, 41_checksum.md section 4). -/
def Obligations.StepKeepsInv : Prop :=
  ∀ s t : State, s.Inv → step s = .next t → t.Inv

/-- A step whose oldest delivery is a packet that decodes to an instruction takes the delivery and is that instruction's
exec; and withFetchWord makes the table's word that delivery (log entries 1 and 12). -/
def Obligations.StepRunsTheDecodedPacket : Prop :=
  (∀ (s : State) (pkt : List Byte) (rest : List Event) (i : Instr), s.inbox = .cmd pkt :: rest → decode pkt = .ok i →
    step s = exec i { s with inbox := rest }) ∧
  (∀ (s : State) (nbits w : Nat) (i : Instr), decodeTableWord nbits w = some i → step (s.withFetchWord nbits w) = exec i s)

/-- What every other step is: a packet that is no command, a reset, a read, and nothing at all where HOST has delivered
nothing (00_scope.md section 3). The model's choices in it: the inbox (log entries 1 and 2), the record of reads that a read
appends to (log entry 3), and that a reset leaves the rest of the inbox and the record (log entry 6). -/
def Obligations.StepTakesTheOldestDelivery : Prop :=
  (∀ (s : State) (pkt : List Byte) (rest : List Event) (e : DecodeError),
    s.inbox = .cmd pkt :: rest → decode pkt = .error e →
    ∃ t, step s = .next t ∧ ({ s with inbox := rest } : State).failsAs 2 t) ∧
  (∀ (s : State) (rest : List Event), s.inbox = .reset :: rest →
    ∃ t, step s = .next t ∧ t.hdr = [] ∧ t.status = 0 ∧ t.inbox = rest ∧ t.returned = s.returned) ∧
  (∀ (s : State) (p : Port) (rest : List Event) (v : Nat), s.inbox = .read p :: rest → readPort p s = some v →
    step s = .next { s with inbox := rest, returned := s.returned ++ [(p, v)] }) ∧
  (∀ (s : State) (p : Port) (rest : List Event), s.inbox = .read p :: rest → readPort p s = none →
    step s = .fault (.portHasNoValue p)) ∧
  (∀ s : State, s.inbox = [] → step s = .next s)

/-- From a state that meets the invariant a step never refuses, and faults only where HOST reads a port that has no value; in
particular every packet at all has a next state (92_eei_decisions.md D33, 60_exceptions.md section 4). -/
def Obligations.OnlyAReadWithoutValueFaults : Prop :=
  (∀ (pkt : List Byte) (s : State), s.Inv → ∃ t, runPacket pkt s = .next t) ∧
  (∀ (s : State) (f : Fault), s.Inv → step s = .fault f →
    ∃ p rest, s.inbox = .read p :: rest ∧ readPort p s = none ∧ f = .portHasNoValue p) ∧
  (∀ (s : State) (r : Refusal), step s ≠ .refused r)

/-- A run of the machine over HOST's deliveries is those deliveries taken in order, each seeing every effect of the ones
before it: the machine's run and the plain sequence are equal, stops included (20_memory.md section 6; the inbox is the
model's, log entry 1). -/
def Obligations.RunIsTheDeliveriesInOrder : Prop :=
  (∀ (es : List Event) (s : State),
    Host.Core.run core es.length ({ s with inbox := es } : State) = runEvents es { s with inbox := [] }) ∧
  (∀ (es es' : List Event) (s : State), runEvents (es ++ es') s = andThen (runEvents es s) (runEvents es'))

/-- HOST's reads can be left out of a run: the same deliveries without the reads end in the same observation but for the
values returned, and those are one for each read, in order (10_state.md R27, 20_memory.md R46, 70_reset_and_hazards.md R169;
log entry 3). -/
def Obligations.ReadsCanBeLeftOut : Prop :=
  ∀ (es : List Event) (s t : State), runEvents es s = .next t →
    (∃ u, runEvents (es.filter (fun e => match e with | .read _ => false | _ => true)) s = .next u ∧
      t.observe = { u.observe with returned := t.returned } ∧ u.returned = s.returned) ∧
    t.returned.map Prod.fst =
      s.returned.map Prod.fst ++ es.filterMap (fun e => match e with | .read p => some p | _ => none)

/-- 20_memory.md R54: a step of one unit leaves every other unit's state as it was, and what it does depends on that unit
alone. -/
def Obligations.UnitsShareNothing : Prop :=
  (∀ (y z : System) (k j : Nat), y.stepUnit k = .next z → j ≠ k → z.units[j]? = y.units[j]?) ∧
  (∀ (y z : System) (k j : Nat) (e : Event), j ≠ k → z = y.deliver k e → z.units[j]? = y.units[j]?) ∧
  (∀ (y y' z : System) (k : Nat), y.units[k]? = y'.units[k]? → y.stepUnit k = .next z →
    ∃ z', y'.stepUnit k = .next z' ∧ z'.units[k]? = z.units[k]?)

/-- A system of N_INSTANCES units starts, and stays under every delivery and step of any unit, with every unit's invariant
true (60_exceptions.md section 7; log entry 8). -/
def Obligations.SystemsKeepEveryUnitsInv : Prop :=
  System.reset.Inv ∧
  (∀ (y : System) (k : Nat) (e : Event), y.Inv → (y.deliver k e).Inv) ∧
  (∀ (y z : System) (k : Nat), y.Inv → y.stepUnit k = .next z → z.Inv)

/-! ## HOST's sequences -/

/-- INSCSUM works: over any segment, with any CHECKSUM field, it completes without recording an error, and a VERIFY with
the same addresses then passes (30_encoding.md section 6 and 41_checksum.md section 3, whose rule on validity the spec marks
as its inference). -/
def Obligations.InscsumMakesVerifyPass : Prop :=
  ∀ (srcip dstip : Word) (s : State), s.Inv → s.hdrValid = true →
    ∃ t u, runPseudo (.inscsum srcip dstip) s = .next t ∧ t.errSeen = s.errSeen ∧
      runPseudo (.verify srcip dstip) t = .next u ∧ verifyPasses u = true

/-- The transmit sequence, with ENCODE or ENCODE_ACK, from every state: HOST reads the checksum of the encoded header and then
the 20 bytes of that header with the checksum in place (70_reset_and_hazards.md section 3). The record of reads, in which the
statement says what HOST has read, is the model's choice (log entry 3). -/
def Obligations.TransmitReturnsTheFinishedSegment : Prop :=
  ∀ (sport dport : Half) (seq acknum srcip dstip : Word) (flags : Byte) (i : Instr) (image : List Byte) (s : State),
    (i = .encode sport dport seq flags ∧ image = headerImage sport dport seq 0 flags ∨
      i = .encodeAck sport dport seq acknum flags ∧ image = headerImage sport dport seq acknum flags) →
    let c := (ocsum (checksumBuffer srcip dstip image)).toNat
    ∃ t, transmit i srcip dstip s = .next t ∧
      t.returned = s.returned ++ [(.csumOut, c)] ++
        (List.finRange 20).map (fun k => (Port.raw k,
          ((image.take 16 ++ bigEndian 2 c ++ image.drop 18).getD k.val 0).toNat)) ∧
      t.inbox = s.inbox ∧ t.err = 0 ∧ t.errSeen = s.errSeen

/-- The lines of 95_test_vectors.md P1 and P2 assemble to the packets 30_encoding.md R76 gives them (30_encoding.md section 6,
log entry 13). -/
def Obligations.SampleLinesAssemble : Prop :=
  assembleLine ['E', 'N', 'C', 'O', 'D', 'E', ' ', '5', '4', '3', '2', '1', ',', ' ', '8', '0', ',', ' ', '1', '0', '0', '0',
      ',', ' ', '0', 'x', '0', '2'] =
    some [.deliver (.cmd [0x01, 0xD4, 0x31, 0x00, 0x50, 0x00, 0x00, 0x03, 0xE8, 0x02])] ∧
  assembleLine ['C', 'S', 'U', 'M', ' ', '1', '9', '2', '.', '1', '6', '8', '.', '2', '1', '5', '.', '3', ',', ' ', '1', '4',
      '2', '.', '2', '5', '0', '.', '1', '8', '9', '.', '2', '0', '6'] =
    some [.deliver (.cmd [0x04, 0xC0, 0xA8, 0xD7, 0x03, 0x8E, 0xFA, 0xBD, 0xCE])] ∧
  assembleLine ['D', 'E', 'C', 'O', 'D', 'E', ' ', '0', '0', ' ', 'F', 'f'] = some [.deliver (.cmd [0x03, 0x00, 0xFF])] ∧
  assembleLine ['R', 'E', 'A', 'D', ' ', 'R', 'A', 'W', '(', '1', '9', ')'] = some [.deliver (.read (.raw 19))] ∧
  assembleLine ['C', 'L', 'R', 'C', 'S', 'U', 'M', ' ', ';', ' ', 'x'] = some [.pseudo .clrcsum]
end

