-- ==== Sys2Proof/Laws/Memory.lean ====
section
/-! SUPPORT. HDR as storage: a read after a write, that every write keeps the canonical form, and that the canonical form
makes equal contents equal data. -/

namespace Sys2Proof.Machine

/-! ## Reading what was written -/

@[simp] theorem Memory.read_write (m : Memory) (o : Nat) (v : Byte) (a : Nat) :
    (m.write o v).read a = if o = a then some v else m.read a := by
  induction m with
  | nil => simp [Memory.write, Memory.read]
  | cons c rest ih =>
    obtain ⟨k, w⟩ := c
    by_cases h1 : o < k
    · simp only [Memory.write, if_pos h1, Memory.read]
    · by_cases h2 : o = k
      · subst h2
        by_cases h3 : o = a <;> simp [Memory.write, Memory.read, h3]
      · by_cases h3 : k = a
        · subst h3; simp [Memory.write, Memory.read, h1, h2]
        · simp [Memory.write, Memory.read, ih, h1, h2, h3]

theorem Memory.read_writeFrom (m : Memory) (o : Nat) (bs : List Byte) (a : Nat) :
    (m.writeFrom o bs).read a = if o ≤ a ∧ a < o + bs.length then bs[a - o]? else m.read a := by
  induction bs generalizing m o with
  | nil => simp only [Memory.writeFrom, List.length_nil]; split_ifs with h <;> first | omega | rfl
  | cons b bs ih =>
    simp only [Memory.writeFrom, ih, Memory.read_write, List.length_cons]
    by_cases h1 : o + 1 ≤ a ∧ a < o + 1 + bs.length
    · rw [if_pos h1, if_pos (by omega), show a - o = (a - (o + 1)) + 1 by omega, List.getElem?_cons_succ]
    · rw [if_neg h1]
      by_cases h2 : o = a
      · subst h2; simp
      · rw [if_neg h2, if_neg (by omega)]

/-- The bytes read from an offset on are a list exactly when each of them is a byte read. -/
theorem Memory.readFrom_eq_some (m : Memory) (o n : Nat) (bs : List Byte) :
    m.readFrom o n = some bs ↔ bs.length = n ∧ ∀ i, i < n → m.read (o + i) = bs[i]? := by
  induction n generalizing o bs with
  | zero => cases bs <;> simp [Memory.readFrom]
  | succ n ih =>
    have step : m.readFrom o (n + 1) = some bs ↔
        ∃ b rest, bs = b :: rest ∧ m.read o = some b ∧ m.readFrom (o + 1) n = some rest := by
      simp only [Memory.readFrom]
      cases h1 : m.read o <;> cases h2 : m.readFrom (o + 1) n <;> simp [eq_comm]
    rw [step]
    constructor
    · rintro ⟨b, rest, rfl, hb, hr⟩
      obtain ⟨hl, hi⟩ := (ih (o + 1) rest).1 hr
      refine ⟨by simp [hl], fun i hlt => ?_⟩
      cases i with
      | zero => simpa using hb
      | succ i => rw [show o + (i + 1) = o + 1 + i by omega, hi i (by omega), List.getElem?_cons_succ]
    · rintro ⟨hl, hi⟩
      cases bs with
      | nil => simp at hl
      | cons b rest =>
        refine ⟨b, rest, rfl, by simpa using hi 0 (by omega), (ih (o + 1) rest).2 ⟨by simpa using hl, fun i hlt => ?_⟩⟩
        rw [show o + 1 + i = o + (i + 1) by omega, hi (i + 1) (by omega), List.getElem?_cons_succ]

/-- Reading a run of bytes right after writing it. -/
theorem Memory.readFrom_writeFrom (m : Memory) (o : Nat) (bs : List Byte) :
    (m.writeFrom o bs).readFrom o bs.length = some bs := by
  rw [Memory.readFrom_eq_some]
  refine ⟨rfl, fun i hi => ?_⟩
  rw [Memory.read_writeFrom, if_pos (by omega)]
  simp

/-! ## The canonical form -/

theorem Memory.wf_nil : Memory.wf [] := by simp [Memory.wf]

theorem Memory.mem_write {m : Memory} {o : Nat} {v : Byte} {c : Host.Cell} (h : c ∈ m.write o v) :
    c = (o, v) ∨ c ∈ m := by
  induction m with
  | nil => simpa [Memory.write] using h
  | cons d rest ih =>
    simp only [Memory.write] at h
    split_ifs at h with h1 h2 <;> simp only [List.mem_cons] at h ⊢
    · exact h
    · rcases h with h | h
      · exact .inl h
      · exact .inr (.inr h)
    · rcases h with h | h
      · exact .inr (.inl h)
      · rcases ih h with h | h
        · exact .inl h
        · exact .inr (.inr h)

/-- A write within 0..19 keeps the canonical form. -/
theorem Memory.wf_write {m : Memory} (h : m.wf) {o : Nat} (ho : o < Config.hdrLen) (v : Byte) : (m.write o v).wf := by
  refine ⟨?_, fun c hc => ?_⟩
  · obtain ⟨hp, -⟩ := h
    induction m with
    | nil => simp [Memory.write]
    | cons d rest ih =>
      obtain ⟨hd, hr⟩ := List.pairwise_cons.1 hp
      simp only [Memory.write]
      split_ifs with h1 h2
      · refine List.pairwise_cons.2 ⟨fun c hc => ?_, hp⟩
        rcases List.mem_cons.1 hc with rfl | hc
        · exact h1
        · exact lt_trans h1 (hd c hc)
      · exact List.pairwise_cons.2 ⟨fun c hc => by simpa [h2] using hd c hc, hr⟩
      · refine List.pairwise_cons.2 ⟨fun c hc => ?_, ih hr⟩
        rcases Memory.mem_write hc with rfl | hc
        · change d.1 < o; omega
        · exact hd c hc
  · rcases Memory.mem_write hc with rfl | hc
    · exact ho
    · exact h.2 c hc

/-- A run of writes within 0..19 keeps the canonical form. -/
theorem Memory.wf_writeFrom {m : Memory} (h : m.wf) {o : Nat} {bs : List Byte} (ho : o + bs.length ≤ Config.hdrLen) :
    (m.writeFrom o bs).wf := by
  induction bs generalizing m o with
  | nil => exact h
  | cons b bs ih =>
    simp only [List.length_cons] at ho
    exact ih (Memory.wf_write h (by omega) b) (by omega)

theorem Memory.read_eq_none_of_lt {m : Memory} {o : Nat} (h : ∀ c ∈ m, o < c.1) : m.read o = none := by
  induction m with
  | nil => rfl
  | cons c rest ih =>
    have hc := h c (by simp)
    simp only [Memory.read]
    rw [if_neg (by omega), ih (fun d hd => h d (by simp [hd]))]

/-- In canonical form, equal contents are equal data. -/
theorem Memory.eq_of_reads {m n : Memory} (hm : m.wf) (hn : n.wf) (h : ∀ a, m.read a = n.read a) : m = n := by
  obtain ⟨hm, -⟩ := hm
  obtain ⟨hn, -⟩ := hn
  induction m generalizing n with
  | nil =>
    cases n with
    | nil => rfl
    | cons c rest => have := h c.1; simp [Memory.read] at this
  | cons c rest ih =>
    cases n with
    | nil => have := h c.1; simp [Memory.read] at this
    | cons d rest' =>
      obtain ⟨hc, hr⟩ := List.pairwise_cons.1 hm
      obtain ⟨hd, hr'⟩ := List.pairwise_cons.1 hn
      have key : c.1 = d.1 := by
        rcases lt_trichotomy c.1 d.1 with hlt | heq | hgt
        · have hnone : Memory.read (d :: rest') c.1 = none :=
            Memory.read_eq_none_of_lt (fun e he => by
              rcases List.mem_cons.1 he with rfl | he
              · exact hlt
              · exact lt_trans hlt (hd e he))
          have := h c.1
          rw [hnone] at this
          simp [Memory.read] at this
        · exact heq
        · have hnone : Memory.read (c :: rest) d.1 = none :=
            Memory.read_eq_none_of_lt (fun e he => by
              rcases List.mem_cons.1 he with rfl | he
              · exact hgt
              · exact lt_trans hgt (hc e he))
          have := h d.1
          rw [hnone] at this
          simp [Memory.read] at this
      have val : c.2 = d.2 := by
        have := h c.1
        simpa [Memory.read, key] using this
      have tails : rest = rest' := by
        refine ih (fun a => ?_) hr hr'
        by_cases ha : c.1 = a
        · rw [Memory.read_eq_none_of_lt (fun e he => ha ▸ hc e he),
            Memory.read_eq_none_of_lt (fun e he => ha ▸ key ▸ hd e he)]
        · have := h a
          simpa [Memory.read, ha, key ▸ ha] using this
      rw [tails, show c = d from Prod.ext key val]

/-! ## The whole header -/

@[simp] theorem be16_put16 (v : Half) : be16 (hiByte v) (loByte v) = v := by
  apply BitVec.eq_of_getLsbD_eq
  intro i hi
  simp only [be16, hiByte, loByte, BitVec.getLsbD_append, BitVec.getLsbD_extractLsb']
  by_cases h : i < 8
  · simp [h]
  · simp [h, show 8 + (i - 8) = i by omega, show i - 8 < 8 by omega]

@[simp] theorem hiByte_be16 (a b : Byte) : hiByte (be16 a b) = a := by
  apply BitVec.eq_of_getLsbD_eq
  intro i hi
  simp only [be16, hiByte, BitVec.getLsbD_append, BitVec.getLsbD_extractLsb', hi, decide_true, Bool.true_and]
  simp [hi]

@[simp] theorem loByte_be16 (a b : Byte) : loByte (be16 a b) = b := by
  apply BitVec.eq_of_getLsbD_eq
  intro i hi
  simp only [be16, loByte, BitVec.getLsbD_append, BitVec.getLsbD_extractLsb', hi, decide_true, Bool.true_and]
  simp [hi]

@[simp] theorem append_halves (v : Word) : (hiHalf v ++ loHalf v : Word) = v := by
  apply BitVec.eq_of_getLsbD_eq
  intro i hi
  simp only [hiHalf, loHalf, BitVec.getLsbD_append, BitVec.getLsbD_extractLsb']
  by_cases h : i < 16
  · simp [h]
  · simp [h, show 16 + (i - 16) = i by omega, show i - 16 < 16 by omega]

@[simp] theorem hiHalf_append (a b : Half) : hiHalf (a ++ b : Word) = a := by
  apply BitVec.eq_of_getLsbD_eq
  intro i hi
  simp only [hiHalf, BitVec.getLsbD_append, BitVec.getLsbD_extractLsb', hi, decide_true, Bool.true_and]
  simp [hi]

@[simp] theorem loHalf_append (a b : Half) : loHalf (a ++ b : Word) = b := by
  apply BitVec.eq_of_getLsbD_eq
  intro i hi
  simp only [loHalf, BitVec.getLsbD_append, BitVec.getLsbD_extractLsb', hi, decide_true, Bool.true_and]
  simp [hi]

/-- `put16` gives back the two bytes of `be16`. -/
@[simp] theorem put16_be16 (a b : Byte) : put16 (be16 a b) = [a, b] := by simp [put16]

/-- `put32` gives back the four bytes of `be32`. -/
@[simp] theorem put32_be32 (a b c d : Byte) : put32 (be32 a b c d) = [a, b, c, d] := by simp [put32, be32]

/-- `be32` of the four bytes of a word is the word. -/
@[simp] theorem be32_put32 (v : Word) :
    be32 (hiByte (hiHalf v)) (loByte (hiHalf v)) (hiByte (loHalf v)) (loByte (loHalf v)) = v := by
  simp [be32]

@[simp] theorem length_put16 (v : Half) : (put16 v).length = 2 := rfl

@[simp] theorem length_put32 (v : Word) : (put32 v).length = 4 := rfl

/-- `put16` is the value's two bytes, most significant first. -/
theorem put16_eq_bigEndian (v : Half) : put16 v = bigEndian 2 v.toNat := by
  have h1 : hiByte v = BitVec.ofNat 8 (v.toNat / 256) := by
    apply BitVec.eq_of_toNat_eq
    simp [hiByte, BitVec.extractLsb'_toNat, Nat.shiftRight_eq_div_pow]
  have h2 : loByte v = BitVec.ofNat 8 v.toNat := by
    apply BitVec.eq_of_toNat_eq
    simp [loByte, BitVec.extractLsb'_toNat]
  simp [put16, bigEndian, h1, h2]

/-- `put32` is the value's four bytes, most significant first. -/
theorem put32_eq_bigEndian (v : Word) : put32 v = bigEndian 4 v.toNat := by
  have h1 : (hiHalf v).toNat = v.toNat / 65536 := by
    simp only [hiHalf, BitVec.extractLsb'_toNat, Nat.shiftRight_eq_div_pow]
    omega
  have h2 : (loHalf v).toNat = v.toNat % 65536 := by
    simp [loHalf, BitVec.extractLsb'_toNat]
  have h3 : BitVec.ofNat 8 (v.toNat % 65536 / 256) = BitVec.ofNat 8 (v.toNat / 256) := by
    apply BitVec.eq_of_toNat_eq; simp only [BitVec.toNat_ofNat]; omega
  have h4 : BitVec.ofNat 8 (v.toNat % 65536) = BitVec.ofNat 8 v.toNat := by
    apply BitVec.eq_of_toNat_eq; simp only [BitVec.toNat_ofNat]; omega
  simp only [put32, put16_eq_bigEndian, h1, h2, bigEndian, h3, h4, Nat.div_div_eq_div_mul, List.nil_append,
    List.cons_append]

/-- `be16` as a number (00_scope.md R13). -/
theorem toNat_be16 (a b : Byte) : (be16 a b).toNat = a.toNat * 256 + b.toNat := by
  have hb := b.isLt
  simp only [be16, BitVec.toNat_append]
  rw [← Nat.shiftLeft_add_eq_or_of_lt hb, Nat.shiftLeft_eq]

/-- `be32` as a number (00_scope.md R13). -/
theorem toNat_append_halves (h l : Half) : (h ++ l : Word).toNat = h.toNat * 65536 + l.toNat := by
  have hl := l.isLt
  simp only [BitVec.toNat_append]
  rw [← Nat.shiftLeft_add_eq_or_of_lt hl, Nat.shiftLeft_eq]

/-- `be32` as a number (00_scope.md R13). -/
theorem toNat_be32 (a b c d : Byte) :
    (be32 a b c d).toNat = a.toNat * 2 ^ 24 + b.toNat * 2 ^ 16 + c.toNat * 2 ^ 8 + d.toNat := by
  simp only [be32, toNat_append_halves, toNat_be16]
  omega

@[simp] theorem length_bigEndian (n v : Nat) : (bigEndian n v).length = n := by
  induction n generalizing v with
  | zero => rfl
  | succ n ih => simp [bigEndian, ih]

/-- Packing a header is writing its 20 bytes from offset 0 on. -/
theorem Memory.packHeader_eq (sport dport : Half) (seq acknum : Word) (flags : Byte) (m : Memory) :
    m.packHeader sport dport seq acknum flags = m.writeFrom 0 (headerImage sport dport seq acknum flags) := by
  have h12 : encodedByte12 = (0x50 : Byte) := by decide
  have hw : put16 Config.windowValue = [(0xFF : Byte), 0xFF] := by decide
  have hu : put16 Config.urgptrValue = [(0x00 : Byte), 0x00] := by decide
  have hz : put16 0 = [(0x00 : Byte), 0x00] := by decide
  simp only [Memory.packHeader, Memory.write16, Memory.write32, headerImage, ← put32_eq_bigEndian,
    ← put16_eq_bigEndian, put32, h12, hw, hu, hz]
  simp only [put16, List.cons_append, List.nil_append, Memory.writeFrom]

theorem length_headerImage (sport dport : Half) (seq acknum : Word) (flags : Byte) :
    (headerImage sport dport seq acknum flags).length = Config.hdrLen := rfl

/-- A packed header reads as its image (30_encoding.md R60). -/
theorem Memory.readFrom_packHeader (sport dport : Half) (seq acknum : Word) (flags : Byte) (m : Memory) :
    (m.packHeader sport dport seq acknum flags).readFrom 0 20 = some (headerImage sport dport seq acknum flags) := by
  rw [Memory.packHeader_eq]
  exact Memory.readFrom_writeFrom m 0 _

/-- Packing a header writes the 20 bytes of its image and nothing else. -/
theorem Memory.read_packHeader (sport dport : Half) (seq acknum : Word) (flags : Byte) (m : Memory) (a : Nat) :
    (m.packHeader sport dport seq acknum flags).read a =
      if a < 20 then (headerImage sport dport seq acknum flags)[a]? else m.read a := by
  simp only [Memory.packHeader_eq, Memory.read_writeFrom, length_headerImage, Nat.zero_le, true_and, Nat.zero_add,
    Nat.sub_zero]

theorem Memory.wf_packHeader {m : Memory} (h : m.wf) (sport dport : Half) (seq acknum : Word) (flags : Byte) :
    (m.packHeader sport dport seq acknum flags).wf := by
  rw [Memory.packHeader_eq]
  exact Memory.wf_writeFrom h (by simp [length_headerImage])

/-- A loaded header reads as the data's first 20 bytes (40_codec.md R96). -/
theorem Memory.readFrom_loadHeader (data : List Byte) (m : Memory) (h : 20 ≤ data.length) :
    (m.loadHeader data).readFrom 0 20 = some (data.take 20) := by
  have hl : (data.take 20).length = 20 := by simp [h]
  have := Memory.readFrom_writeFrom m 0 (data.take 20)
  rwa [hl] at this

/-- Loading a header writes the data's first 20 bytes and nothing else. -/
theorem Memory.read_loadHeader (data : List Byte) (m : Memory) (h : 20 ≤ data.length) (a : Nat) :
    (m.loadHeader data).read a = if a < 20 then data[a]? else m.read a := by
  have hl : (data.take 20).length = 20 := by simp [h]
  simp only [Memory.loadHeader, Memory.read_writeFrom, hl, Nat.zero_le, true_and, Nat.zero_add, Nat.sub_zero]
  by_cases ha : a < 20
  · simp [ha]
  · simp [ha]

theorem Memory.wf_loadHeader {m : Memory} (h : m.wf) (data : List Byte) : (m.loadHeader data).wf :=
  Memory.wf_writeFrom h (by simp)

/-- Writing a 16-bit field writes its two bytes and nothing else (00_scope.md R12). -/
theorem Memory.read_write16 (m : Memory) (o : Nat) (v : Half) (a : Nat) :
    (m.write16 o v).read a =
      if a = o then some (hiByte v) else if a = o + 1 then some (loByte v) else m.read a := by
  simp only [Memory.write16, put16, Memory.writeFrom, Memory.read_write]
  by_cases h1 : a = o
  · subst h1; simp
  · by_cases h2 : a = o + 1
    · subst h2; simp
    · simp [h1, h2, Ne.symm h1, Ne.symm h2]

theorem Memory.wf_write16 {m : Memory} (h : m.wf) {o : Nat} (ho : o + 2 ≤ Config.hdrLen) (v : Half) :
    (m.write16 o v).wf := Memory.wf_writeFrom h (by simpa using ho)

theorem Memory.wf_write32 {m : Memory} (h : m.wf) {o : Nat} (ho : o + 4 ≤ Config.hdrLen) (v : Word) :
    (m.write32 o v).wf := Memory.wf_writeFrom h (by simpa using ho)

/-- All 20 bytes of HDR are readable together exactly when each is (10_state.md R20). -/
theorem Memory.readFrom_isSome (m : Memory) (o n : Nat) :
    (m.readFrom o n).isSome = true ↔ ∀ i, i < n → (m.read (o + i)).isSome = true := by
  induction n generalizing o with
  | zero => simp [Memory.readFrom]
  | succ n ih =>
    have hrec : (m.readFrom o (n + 1)).isSome = true ↔
        (m.read o).isSome = true ∧ (m.readFrom (o + 1) n).isSome = true := by
      simp only [Memory.readFrom]
      cases m.read o <;> cases m.readFrom (o + 1) n <;> simp
    rw [hrec, ih]
    constructor
    · rintro ⟨h0, hi⟩ i hlt
      cases i with
      | zero => exact h0
      | succ i => rw [show o + (i + 1) = o + 1 + i by omega]; exact hi i (by omega)
    · intro h
      refine ⟨h 0 (by omega), fun i hlt => ?_⟩
      rw [show o + 1 + i = o + (i + 1) by omega]; exact h (i + 1) (by omega)

end Sys2Proof.Machine
end

