-- ==== Sys2Proof/Laws/Checksum.lean ====
section
/-! SUPPORT. The arithmetic of the checksum: the fold's closed form, and the word sum of joined and changed buffers. -/

namespace Sys2Proof.Machine

/-- A fold turn above 0xFFFF lowers the sum (41_checksum.md R121). -/
theorem foldOnce_lt {sum : Nat} (h : 65535 < sum) : foldOnce sum < sum := by
  unfold foldOnce; omega

/-- A fold turn keeps the sum modulo 0xFFFF. -/
theorem foldOnce_mod (sum : Nat) : foldOnce sum % 65535 = sum % 65535 := by
  unfold foldOnce; omega

/-- A fold turn of a positive sum leaves a positive sum. -/
theorem foldOnce_pos {sum : Nat} (h : 0 < sum) : 0 < foldOnce sum := by
  unfold foldOnce; omega

/-- With fuel enough, the loop's end is the one number in 1..0xFFFF congruent to a positive sum modulo 0xFFFF. -/
theorem foldLoop_eq {fuel sum : Nat} (hf : sum ≤ fuel) (hp : 0 < sum) :
    foldLoop fuel sum = 1 + (sum - 1) % 65535 := by
  induction fuel generalizing sum with
  | zero => omega
  | succ fuel ih =>
    simp only [foldLoop]
    split_ifs with h
    · have hlt := foldOnce_lt h
      have hpos := foldOnce_pos hp
      rw [ih (by omega) hpos]
      have hm := foldOnce_mod sum
      omega
    · omega

theorem carryFold_zero : carryFold 0 = 0 := rfl

theorem carryFold_pos {sum : Nat} (hp : 0 < sum) : carryFold sum = 1 + (sum - 1) % 65535 :=
  foldLoop_eq le_rfl hp

theorem carryFold_le (sum : Nat) : carryFold sum ≤ 65535 := by
  rcases Nat.eq_zero_or_pos sum with rfl | h
  · simp [carryFold_zero]
  · rw [carryFold_pos h]; omega

theorem toNat_ocsum (bytes : List Byte) : (ocsum bytes).toNat = 65535 - carryFold (wordSum bytes) := by
  have h := carryFold_le (wordSum bytes)
  simp only [ocsum, BitVec.toNat_ofNat]
  omega

/-- The words of an even-length buffer and of what follows it add up. -/
theorem wordSum_append (u v : List Byte) (h : u.length % 2 = 0) : wordSum (u ++ v) = wordSum u + wordSum v := by
  induction u using wordSum.induct with
  | case1 => simp [wordSum]
  | case2 b => simp at h
  | case3 a b rest ih =>
    simp only [List.length_cons] at h
    simp only [List.cons_append, wordSum, ih (by omega)]
    omega

theorem wordSum_put16 (v : Half) : wordSum (put16 v) = v.toNat := by
  simp [put16, wordSum]

theorem wordSum_put32 (v : Word) : wordSum (put32 v) = (hiHalf v).toNat + (loHalf v).toNat := by
  rw [put32, wordSum_append _ _ (by simp), wordSum_put16, wordSum_put16]

/-- The pseudo-header's words: the addresses' halves, 0x0006 and 0x0014 (30_encoding.md R72). -/
theorem wordSum_checksumBuffer (srcip dstip : Word) (header : List Byte) :
    wordSum (checksumBuffer srcip dstip header) =
      (hiHalf srcip).toNat + (loHalf srcip).toNat + ((hiHalf dstip).toNat + (loHalf dstip).toNat) + 26 +
        wordSum header := by
  have h1 : wordSum [0x00, Config.proto] = 6 := by decide
  have h2 : wordSum (put16 Config.segLen) = 20 := by decide
  simp only [checksumBuffer, pseudoHeader]
  rw [wordSum_append _ _ (by simp), wordSum_append _ _ (by simp), wordSum_append _ _ (by simp),
    wordSum_append _ _ (by simp), wordSum_put32, wordSum_put32, h1, h2]

/-- A buffer's sum is at most 0xFFFF a word. -/
theorem wordSum_le (bytes : List Byte) (h : bytes.length % 2 = 0) : wordSum bytes ≤ bytes.length / 2 * 65535 := by
  induction bytes using wordSum.induct with
  | case1 => simp [wordSum]
  | case2 b => simp at h
  | case3 a b rest ih =>
    simp only [List.length_cons] at h
    have hb := (be16 a b).isLt
    have := ih (by omega)
    simp only [List.length_cons, wordSum]
    omega

end Sys2Proof.Machine
end

