-- ==== Sys2Proof/Laws/State.lean ====
section
/-! SUPPORT. What each update of the state leaves in each field and each field of STATUS, so that no proof unfolds a record
update or the bits of STATUS. -/

namespace Sys2Proof.Machine

/-! ## The fields of a packed STATUS -/

@[simp] theorem statusErr_packStatus (e : BitVec 4) (a b c : Bool) : statusErr (packStatus e a b c) = e := by
  revert e a b c; decide

@[simp] theorem statusErrSeen_packStatus (e : BitVec 4) (a b c : Bool) : statusErrSeen (packStatus e a b c) = a := by
  revert e a b c; decide

@[simp] theorem statusHdrValid_packStatus (e : BitVec 4) (a b c : Bool) : statusHdrValid (packStatus e a b c) = b := by
  revert e a b c; decide

@[simp] theorem statusCsumValid_packStatus (e : BitVec 4) (a b c : Bool) : statusCsumValid (packStatus e a b c) = c := by
  revert e a b c; decide

@[simp] theorem packStatus_bit7 (e : BitVec 4) (a b c : Bool) : (packStatus e a b c).getLsbD 7 = false := by
  revert e a b c; decide

/-- A STATUS byte whose bit 7 is 0 is its fields packed again. -/
theorem packStatus_fields (v : Byte) (h : v.getLsbD 7 = false) :
    packStatus (statusErr v) (statusErrSeen v) (statusHdrValid v) (statusCsumValid v) = v := by
  revert v; decide

/-! ## Plain updates: a field of STATUS depends on STATUS alone -/

@[simp] theorem State.err_mk (m : Memory) (c : Half) (v : Byte) (i : List Event) (r : List (Port × Nat)) :
    State.err (State.mk m c v i r) = statusErr v := rfl

@[simp] theorem statusErr_status (s : State) : statusErr s.status = s.err := rfl

@[simp] theorem State.errSeen_mk (m : Memory) (c : Half) (v : Byte) (i : List Event) (r : List (Port × Nat)) :
    State.errSeen (State.mk m c v i r) = statusErrSeen v := rfl

@[simp] theorem statusErrSeen_status (s : State) : statusErrSeen s.status = s.errSeen := rfl

@[simp] theorem State.hdrValid_mk (m : Memory) (c : Half) (v : Byte) (i : List Event) (r : List (Port × Nat)) :
    State.hdrValid (State.mk m c v i r) = statusHdrValid v := rfl

@[simp] theorem statusHdrValid_status (s : State) : statusHdrValid s.status = s.hdrValid := rfl

@[simp] theorem State.csumValid_mk (m : Memory) (c : Half) (v : Byte) (i : List Event) (r : List (Port × Nat)) :
    State.csumValid (State.mk m c v i r) = statusCsumValid v := rfl

@[simp] theorem statusCsumValid_status (s : State) : statusCsumValid s.status = s.csumValid := rfl

/-! ## writeStatus -/

@[simp] theorem State.hdr_writeStatus (s : State) (e : BitVec 4) (a b c : Bool) :
    State.hdr (s.writeStatus e a b c) = s.hdr := rfl

@[simp] theorem State.csum_writeStatus (s : State) (e : BitVec 4) (a b c : Bool) :
    State.csum (s.writeStatus e a b c) = s.csum := rfl

@[simp] theorem State.inbox_writeStatus (s : State) (e : BitVec 4) (a b c : Bool) :
    State.inbox (s.writeStatus e a b c) = s.inbox := rfl

@[simp] theorem State.returned_writeStatus (s : State) (e : BitVec 4) (a b c : Bool) :
    State.returned (s.writeStatus e a b c) = s.returned := rfl

@[simp] theorem State.status_writeStatus (s : State) (e : BitVec 4) (a b c : Bool) :
    State.status (s.writeStatus e a b c) = packStatus e a b c := rfl

@[simp] theorem State.err_writeStatus (s : State) (e : BitVec 4) (a b c : Bool) :
    State.err (s.writeStatus e a b c) = e := statusErr_packStatus e a b c

@[simp] theorem State.errSeen_writeStatus (s : State) (e : BitVec 4) (a b c : Bool) :
    State.errSeen (s.writeStatus e a b c) = a := statusErrSeen_packStatus e a b c

@[simp] theorem State.hdrValid_writeStatus (s : State) (e : BitVec 4) (a b c : Bool) :
    State.hdrValid (s.writeStatus e a b c) = b := statusHdrValid_packStatus e a b c

@[simp] theorem State.csumValid_writeStatus (s : State) (e : BitVec 4) (a b c : Bool) :
    State.csumValid (s.writeStatus e a b c) = c := statusCsumValid_packStatus e a b c

/-! ## succeed -/

@[simp] theorem State.hdr_succeed (s : State) (b c : Bool) :
    State.hdr (s.succeed b c) = s.hdr := rfl

@[simp] theorem State.csum_succeed (s : State) (b c : Bool) :
    State.csum (s.succeed b c) = s.csum := rfl

@[simp] theorem State.inbox_succeed (s : State) (b c : Bool) :
    State.inbox (s.succeed b c) = s.inbox := rfl

@[simp] theorem State.returned_succeed (s : State) (b c : Bool) :
    State.returned (s.succeed b c) = s.returned := rfl

@[simp] theorem State.status_succeed (s : State) (b c : Bool) :
    State.status (s.succeed b c) = packStatus 0 s.errSeen b c := rfl

@[simp] theorem State.err_succeed (s : State) (b c : Bool) :
    State.err (s.succeed b c) = 0 := State.err_writeStatus s 0 s.errSeen b c

@[simp] theorem State.errSeen_succeed (s : State) (b c : Bool) :
    State.errSeen (s.succeed b c) = s.errSeen := State.errSeen_writeStatus s 0 s.errSeen b c

@[simp] theorem State.hdrValid_succeed (s : State) (b c : Bool) :
    State.hdrValid (s.succeed b c) = b := State.hdrValid_writeStatus s 0 s.errSeen b c

@[simp] theorem State.csumValid_succeed (s : State) (b c : Bool) :
    State.csumValid (s.succeed b c) = c := State.csumValid_writeStatus s 0 s.errSeen b c

/-! ## raiseError -/

@[simp] theorem State.hdr_raiseError (s : State) (k : ErrCode) :
    State.hdr (s.raiseError k) = s.hdr := rfl

@[simp] theorem State.csum_raiseError (s : State) (k : ErrCode) :
    State.csum (s.raiseError k) = s.csum := rfl

@[simp] theorem State.inbox_raiseError (s : State) (k : ErrCode) :
    State.inbox (s.raiseError k) = s.inbox := rfl

@[simp] theorem State.returned_raiseError (s : State) (k : ErrCode) :
    State.returned (s.raiseError k) = s.returned := rfl

@[simp] theorem State.status_raiseError (s : State) (k : ErrCode) :
    State.status (s.raiseError k) = packStatus (errBits k) true s.hdrValid s.csumValid := rfl

@[simp] theorem State.err_raiseError (s : State) (k : ErrCode) :
    State.err (s.raiseError k) = errBits k := State.err_writeStatus s (errBits k) true s.hdrValid s.csumValid

@[simp] theorem State.errSeen_raiseError (s : State) (k : ErrCode) :
    State.errSeen (s.raiseError k) = true := State.errSeen_writeStatus s (errBits k) true s.hdrValid s.csumValid

@[simp] theorem State.hdrValid_raiseError (s : State) (k : ErrCode) :
    State.hdrValid (s.raiseError k) = s.hdrValid := State.hdrValid_writeStatus s (errBits k) true s.hdrValid s.csumValid

@[simp] theorem State.csumValid_raiseError (s : State) (k : ErrCode) :
    State.csumValid (s.raiseError k) = s.csumValid := State.csumValid_writeStatus s (errBits k) true s.hdrValid s.csumValid

/-! ## raiseMalformed -/

@[simp] theorem State.hdr_raiseMalformed (s : State) :
    State.hdr (s.raiseMalformed) = s.hdr := rfl

@[simp] theorem State.csum_raiseMalformed (s : State) :
    State.csum (s.raiseMalformed) = s.csum := rfl

@[simp] theorem State.inbox_raiseMalformed (s : State) :
    State.inbox (s.raiseMalformed) = s.inbox := rfl

@[simp] theorem State.returned_raiseMalformed (s : State) :
    State.returned (s.raiseMalformed) = s.returned := rfl

@[simp] theorem State.status_raiseMalformed (s : State) :
    State.status (s.raiseMalformed) = packStatus 1 true false s.csumValid := rfl

@[simp] theorem State.err_raiseMalformed (s : State) :
    State.err (s.raiseMalformed) = 1 := State.err_writeStatus s 1 true false s.csumValid

@[simp] theorem State.errSeen_raiseMalformed (s : State) :
    State.errSeen (s.raiseMalformed) = true := State.errSeen_writeStatus s 1 true false s.csumValid

@[simp] theorem State.hdrValid_raiseMalformed (s : State) :
    State.hdrValid (s.raiseMalformed) = false := State.hdrValid_writeStatus s 1 true false s.csumValid

@[simp] theorem State.csumValid_raiseMalformed (s : State) :
    State.csumValid (s.raiseMalformed) = s.csumValid := State.csumValid_writeStatus s 1 true false s.csumValid

/-! ## assertReset -/

@[simp] theorem State.hdr_assertReset (s : State) :
    State.hdr (s.assertReset) = [] := rfl

@[simp] theorem State.csum_assertReset (s : State) :
    State.csum (s.assertReset) = 0 := rfl

@[simp] theorem State.status_assertReset (s : State) :
    State.status (s.assertReset) = 0 := rfl

@[simp] theorem State.inbox_assertReset (s : State) :
    State.inbox (s.assertReset) = s.inbox := rfl

@[simp] theorem State.returned_assertReset (s : State) :
    State.returned (s.assertReset) = s.returned := rfl

@[simp] theorem State.err_assertReset (s : State) :
    State.err (s.assertReset) = 0 := rfl

@[simp] theorem State.errSeen_assertReset (s : State) :
    State.errSeen (s.assertReset) = false := (by decide : statusErrSeen 0 = false)

@[simp] theorem State.hdrValid_assertReset (s : State) :
    State.hdrValid (s.assertReset) = false := (by decide : statusHdrValid 0 = false)

@[simp] theorem State.csumValid_assertReset (s : State) :
    State.csumValid (s.assertReset) = false := (by decide : statusCsumValid 0 = false)

/-! ## Whether HDR is written depends on HDR alone -/

@[simp] theorem State.hdrWritten_mk (m : Memory) (c : Half) (v : Byte) (i : List Event) (r : List (Port × Nat)) :
    State.hdrWritten (State.mk m c v i r) = (m.readFrom 0 Config.hdrLen).isSome := rfl

@[simp] theorem readFrom_isSome_hdr (s : State) : (s.hdr.readFrom 0 Config.hdrLen).isSome = s.hdrWritten := rfl

@[simp] theorem State.hdrWritten_writeStatus (s : State) (e : BitVec 4) (a b c : Bool) :
    State.hdrWritten (s.writeStatus e a b c) = s.hdrWritten := rfl

@[simp] theorem State.hdrWritten_succeed (s : State) (b c : Bool) :
    State.hdrWritten (s.succeed b c) = s.hdrWritten := rfl

@[simp] theorem State.hdrWritten_raiseError (s : State) (k : ErrCode) :
    State.hdrWritten (s.raiseError k) = s.hdrWritten := rfl

@[simp] theorem State.hdrWritten_raiseMalformed (s : State) :
    State.hdrWritten (s.raiseMalformed) = s.hdrWritten := rfl

/-- Two states with the same five fields are the same state. -/
theorem State.ext_fields {s t : State} (h1 : s.hdr = t.hdr) (h2 : s.csum = t.csum) (h3 : s.status = t.status)
    (h4 : s.inbox = t.inbox) (h5 : s.returned = t.returned) : s = t := by
  cases s; cases t; simp_all

end Sys2Proof.Machine
end

