-- ==== Sys2Proof/Laws/Packet.lean ====
section
/-! SUPPORT. What the decoder, the parts it is made of and one delivery can answer, said once. -/

namespace Sys2Proof

/-- MAX_DECODE_LEN is at least 20 (00_scope.md R9). -/
theorem twenty_le_maxDecodeLen : 20 ≤ Config.maxDecodeLen := Nat.le_add_right 20 _

/-- The length check of a DECODE is the parameter's bound (30_encoding.md R78). -/
theorem dataLenOk_iff (n : Nat) : dataLenOk n = true ↔ n ≤ Config.maxDecodeLen := by
  have h := twenty_le_maxDecodeLen
  simp only [dataLenOk, Bool.or_eq_true, decide_eq_true_eq, Config.hdrLen]
  omega

theorem decode_encode_op (args : List Byte) : decode (opEncode :: args) = decodeEncode args := rfl

theorem decode_encodeAck_op (args : List Byte) : decode (opEncodeAck :: args) = decodeEncodeAck args := rfl

theorem decode_decode_op (args : List Byte) : decode (opDecode :: args) = decodeDecode args := rfl

theorem decode_csum_op (args : List Byte) : decode (opCsum :: args) = decodeCsum args := rfl

theorem decode_setcsum_op (args : List Byte) : decode (opSetcsum :: args) = decodeSetcsum args := rfl

/-- What a packet that carries a command looks like: the opcode, then exactly the operand bytes. -/
theorem decode_ok_cases {pkt : List Byte} {i : Instr} (h : decode pkt = .ok i) :
    (∃ s0 s1 d0 d1 q0 q1 q2 q3 f, pkt = [opEncode, s0, s1, d0, d1, q0, q1, q2, q3, f] ∧
      i = .encode (be16 s0 s1) (be16 d0 d1) (be32 q0 q1 q2 q3) f) ∨
    (∃ s0 s1 d0 d1 q0 q1 q2 q3 a0 a1 a2 a3 f,
      pkt = [opEncodeAck, s0, s1, d0, d1, q0, q1, q2, q3, a0, a1, a2, a3, f] ∧
      i = .encodeAck (be16 s0 s1) (be16 d0 d1) (be32 q0 q1 q2 q3) (be32 a0 a1 a2 a3) f) ∨
    (∃ data, pkt = opDecode :: data ∧ dataLenOk data.length = true ∧ i = .decode data) ∨
    (∃ s0 s1 s2 s3 d0 d1 d2 d3, pkt = [opCsum, s0, s1, s2, s3, d0, d1, d2, d3] ∧
      i = .csum (be32 s0 s1 s2 s3) (be32 d0 d1 d2 d3)) ∨
    (∃ v0 v1, pkt = [opSetcsum, v0, v1] ∧ i = .setcsum (be16 v0 v1)) := by
  match pkt with
  | [] => cases h
  | op :: args =>
    simp only [decode] at h
    split_ifs at h with h1 h2 h3 h4 h5
    · subst h1
      unfold decodeEncode at h
      split at h <;> cases h
      exact .inl ⟨_, _, _, _, _, _, _, _, _, rfl, rfl⟩
    · subst h2
      unfold decodeEncodeAck at h
      split at h <;> cases h
      exact .inr (.inl ⟨_, _, _, _, _, _, _, _, _, _, _, _, _, rfl, rfl⟩)
    · subst h3
      unfold decodeDecode at h
      split at h <;> cases h
      exact .inr (.inr (.inl ⟨_, rfl, ‹_›, rfl⟩))
    · subst h4
      unfold decodeCsum at h
      split at h <;> cases h
      exact .inr (.inr (.inr (.inl ⟨_, _, _, _, _, _, _, _, rfl, rfl⟩)))
    · subst h5
      unfold decodeSetcsum at h
      split at h <;> cases h
      exact .inr (.inr (.inr (.inr ⟨_, _, rfl, rfl⟩)))

/-- `raiseError` is the common error outcome of its code (60_exceptions.md R143). -/
theorem Machine.State.failsAs_raiseError (s : Machine.State) (e : Machine.ErrCode) :
    s.failsAs (Machine.errBits e) (s.raiseError e) := by
  simp [Machine.State.failsAs, Machine.State.hostSame]

/-- A packet delivered runs its command, or is an ILLEGAL_COMMAND (40_codec.md R90). -/
theorem Machine.runPacket_cases (pkt : List Byte) (s : Machine.State) :
    (∃ i, decode pkt = .ok i ∧ Machine.runPacket pkt s = Machine.exec i s) ∨
    ((∃ e, decode pkt = .error e) ∧ Machine.runPacket pkt s = .next (s.raiseError .illegalCommand)) := by
  unfold Machine.runPacket
  cases decode pkt with
  | ok i => exact .inl ⟨i, rfl, rfl⟩
  | error e => exact .inr ⟨⟨e, rfl⟩, rfl⟩

end Sys2Proof
end

