-- ==== Sys2Proof/Laws/Commands.lean ====
section
/-! SUPPORT. What one command can do, said once: every way `exec` answers a next state, and that it refuses nothing and
stops only where CSUM meets a byte of HDR without a value. -/

namespace Sys2Proof.Machine

/-- Every next state a command has: the three that load a header, SETCSUM and CSUM with a segment, and the errors. -/
theorem exec_next_cases {i : Instr} {s t : State} (h : exec i s = .next t) :
    (∃ sport dport seq flags, i = .encode sport dport seq flags ∧
      t = State.succeed true s.csumValid { s with hdr := s.hdr.packHeader sport dport seq 0 flags }) ∨
    (∃ sport dport seq acknum flags, i = .encodeAck sport dport seq acknum flags ∧
      t = State.succeed true s.csumValid { s with hdr := s.hdr.packHeader sport dport seq acknum flags }) ∨
    (∃ data, i = .decode data ∧ 20 ≤ data.length ∧
      t = State.succeed true s.csumValid { s with hdr := s.hdr.loadHeader data }) ∨
    (∃ data, i = .decode data ∧ data.length < 20 ∧ t = s.raiseMalformed) ∨
    (∃ srcip dstip header, i = .csum srcip dstip ∧ s.hdrValid = true ∧ s.hdr.readFrom 0 20 = some header ∧
      t = State.succeed true true { s with csum := ocsum (checksumBuffer srcip dstip header) }) ∨
    (∃ value, i = .setcsum value ∧ s.hdrValid = true ∧
      t = State.succeed true s.csumValid { s with hdr := s.hdr.write16 16 value }) ∨
    (s.hdrValid = false ∧ ((∃ srcip dstip, i = .csum srcip dstip) ∨ ∃ value, i = .setcsum value) ∧
      t = s.raiseError .noSegment) := by
  cases i with
  | encode sport dport seq flags =>
    simp only [exec, execEncode, Host.Outcome.next.injEq] at h
    exact .inl ⟨_, _, _, _, rfl, h.symm⟩
  | encodeAck sport dport seq acknum flags =>
    simp only [exec, execEncodeAck, Host.Outcome.next.injEq] at h
    exact .inr (.inl ⟨_, _, _, _, _, rfl, h.symm⟩)
  | decode data =>
    simp only [exec, execDecode] at h
    split_ifs at h with hl <;> cases h
    · exact .inr (.inr (.inr (.inl ⟨_, rfl, hl, rfl⟩)))
    · exact .inr (.inr (.inl ⟨_, rfl, Nat.not_lt.1 hl, rfl⟩))
  | csum srcip dstip =>
    simp only [exec, execCsum] at h
    split_ifs at h with hv
    · split at h <;> cases h
      exact .inr (.inr (.inr (.inr (.inl ⟨_, _, _, rfl, hv, ‹_›, rfl⟩))))
    · cases h
      exact .inr (.inr (.inr (.inr (.inr (.inr ⟨by simpa using hv, .inl ⟨_, _, rfl⟩, rfl⟩)))))
  | setcsum value =>
    simp only [exec, execSetcsum] at h
    split_ifs at h with hv <;> cases h
    · exact .inr (.inr (.inr (.inr (.inr (.inl ⟨_, rfl, hv, rfl⟩)))))
    · exact .inr (.inr (.inr (.inr (.inr (.inr ⟨by simpa using hv, .inr ⟨_, rfl⟩, rfl⟩)))))

/-- DECODE of at least 20 bytes. -/
theorem exec_decode_long {data : List Byte} (h : 20 ≤ data.length) (s : State) :
    exec (.decode data) s = .next (State.succeed true s.csumValid { s with hdr := s.hdr.loadHeader data }) := by
  simp only [exec, execDecode]
  rw [if_neg (Nat.not_lt.2 h)]

/-- DECODE of fewer than 20 bytes. -/
theorem exec_decode_short {data : List Byte} (h : data.length < 20) (s : State) :
    exec (.decode data) s = .next s.raiseMalformed := by
  simp only [exec, execDecode]
  rw [if_pos h]

/-- CSUM over a header whose bytes all have a value. -/
theorem exec_csum_valid {s : State} {header : List Byte} (hv : s.hdrValid = true)
    (hr : s.hdr.readFrom 0 20 = some header) (srcip dstip : Word) :
    exec (.csum srcip dstip) s =
      .next (State.succeed true true { s with csum := ocsum (checksumBuffer srcip dstip header) }) := by
  simp [exec, execCsum, hv, hr]

/-- CSUM without a segment. -/
theorem exec_csum_invalid {s : State} (hv : s.hdrValid = false) (srcip dstip : Word) :
    exec (.csum srcip dstip) s = .next (s.raiseError .noSegment) := by
  simp [exec, execCsum, hv]

/-- SETCSUM with a segment. -/
theorem exec_setcsum_valid {s : State} (hv : s.hdrValid = true) (value : Half) :
    exec (.setcsum value) s = .next (State.succeed true s.csumValid { s with hdr := s.hdr.write16 16 value }) := by
  simp [exec, execSetcsum, hv]

/-- SETCSUM without a segment. -/
theorem exec_setcsum_invalid {s : State} (hv : s.hdrValid = false) (value : Half) :
    exec (.setcsum value) s = .next (s.raiseError .noSegment) := by
  simp [exec, execSetcsum, hv]

/-- No command is refused. -/
theorem exec_ne_refused (i : Instr) (s : State) (r : Refusal) : exec i s ≠ .refused r := by
  cases i with
  | encode => exact fun h => by cases h
  | encodeAck => exact fun h => by cases h
  | decode data => simp only [exec, execDecode]; split_ifs <;> exact fun h => by cases h
  | csum a b =>
    simp only [exec, execCsum]
    split_ifs
    · split <;> exact fun h => by cases h
    · exact fun h => by cases h
  | setcsum v => simp only [exec, execSetcsum]; split_ifs <;> exact fun h => by cases h

/-- A command faults only where CSUM finds HDR_VALID 1 and a byte without a value (log entry 11). -/
theorem exec_fault {i : Instr} {s : State} {f : Fault} (h : exec i s = .fault f) :
    s.hdrValid = true ∧ s.hdr.readFrom 0 20 = none := by
  cases i with
  | encode => cases h
  | encodeAck => cases h
  | decode data => simp only [exec, execDecode] at h; split_ifs at h
  | csum a b =>
    simp only [exec, execCsum] at h
    split_ifs at h with hv
    split at h
    · cases h
    · exact ⟨hv, ‹_›⟩
  | setcsum v => simp only [exec, execSetcsum] at h; split_ifs at h

/-! ## A delivery looks at nothing of HOST's queue -/

/-- An outcome with its next state changed; a stop stays the stop it is. -/
def mapNext (f : State → State) : Host.Outcome State Fault Refusal → Host.Outcome State Fault Refusal
  | .next s => .next (f s)
  | .fault r => .fault r
  | .refused r => .refused r

/-- A command does the same whatever HOST has delivered besides, and leaves that as it is. -/
theorem exec_with_inbox (i : Instr) (s : State) (x : List Event) :
    exec i { s with inbox := x } = mapNext (fun t => { t with inbox := x }) (exec i s) := by
  cases i with
  | encode => simp only [exec, execEncode, mapNext, State.succeed, State.writeStatus]; rfl
  | encodeAck => simp only [exec, execEncodeAck, mapNext, State.succeed, State.writeStatus]; rfl
  | decode data => simp only [exec, execDecode]; split_ifs <;> rfl
  | csum a b =>
    cases hv : s.hdrValid with
    | true =>
      cases hr : s.hdr.readFrom 0 20 with
      | none => simp [exec, execCsum, hv, hr, mapNext]
      | some header => rw [exec_csum_valid (s := { s with inbox := x }) hv hr, exec_csum_valid hv hr]; rfl
    | false => rw [exec_csum_invalid (s := { s with inbox := x }) hv, exec_csum_invalid hv]; rfl
  | setcsum v =>
    cases hv : s.hdrValid with
    | true => rw [exec_setcsum_valid (s := { s with inbox := x }) hv, exec_setcsum_valid hv]; rfl
    | false => rw [exec_setcsum_invalid (s := { s with inbox := x }) hv, exec_setcsum_invalid hv]; rfl

/-- A command does the same whatever HOST has read before, and leaves that record as it is. -/
theorem exec_with_returned (i : Instr) (s : State) (x : List (Port × Nat)) :
    exec i { s with returned := x } = mapNext (fun t => { t with returned := x }) (exec i s) := by
  cases i with
  | encode => simp only [exec, execEncode, mapNext, State.succeed, State.writeStatus]; rfl
  | encodeAck => simp only [exec, execEncodeAck, mapNext, State.succeed, State.writeStatus]; rfl
  | decode data => simp only [exec, execDecode]; split_ifs <;> rfl
  | csum a b =>
    cases hv : s.hdrValid with
    | true =>
      cases hr : s.hdr.readFrom 0 20 with
      | none => simp [exec, execCsum, hv, hr, mapNext]
      | some header => rw [exec_csum_valid (s := { s with returned := x }) hv hr, exec_csum_valid hv hr]; rfl
    | false => rw [exec_csum_invalid (s := { s with returned := x }) hv, exec_csum_invalid hv]; rfl
  | setcsum v =>
    cases hv : s.hdrValid with
    | true => rw [exec_setcsum_valid (s := { s with returned := x }) hv, exec_setcsum_valid hv]; rfl
    | false => rw [exec_setcsum_invalid (s := { s with returned := x }) hv, exec_setcsum_invalid hv]; rfl

/-- What a port shows does not depend on HOST's side. -/
theorem readPort_with_inbox (p : Port) (s : State) (x : List Event) : readPort p { s with inbox := x } = readPort p s := by
  cases p <;> rfl

/-- Every delivery does the same whatever HOST has delivered besides, and leaves that as it is. -/
theorem runEvent_with_inbox (e : Event) (s : State) (x : List Event) :
    runEvent e { s with inbox := x } = mapNext (fun t => { t with inbox := x }) (runEvent e s) := by
  cases e with
  | reset => rfl
  | read p =>
    simp only [runEvent, runRead, readPort_with_inbox]
    cases readPort p s <;> rfl
  | cmd pkt =>
    simp only [runEvent, runPacket]
    cases decode pkt with
    | error e => rfl
    | ok i => exact exec_with_inbox i s x

/-! ## Ports -/

/-- A port that shows HDR has its value from the buffer while HDR_VALID is 1 and none while it is 0 (40_codec.md R116). -/
theorem readPort_header {p : Port} (h1 : p ≠ .csumOut) (h2 : p ≠ .statusOut) (s : State) :
    readPort p s = if s.hdrValid then headerPort s.hdr p else none := by
  cases p <;> first | rfl | contradiction

/-- CSUM_OUT has its value while CSUM_VALID is 1 (40_codec.md R116). -/
theorem readPort_csumOut (s : State) : readPort .csumOut s = if s.csumValid then some s.csum.toNat else none := rfl

end Sys2Proof.Machine
end

