-- ==== Sys2Proof/Laws/PerInstr.lean ====
section
/-! SUPPORT. The statements made per instruction: `PacketShape` says that the packet of a well-formed instruction starts
with its opcode and has the length the opcode table gives it (30_encoding.md R76, R77). -/

namespace Sys2Proof

/-- The opcode the table gives an instruction (30_encoding.md R76). -/
def tableOpcode : Instr → Byte
  | .encode _ _ _ _ => 0x01
  | .encodeAck _ _ _ _ _ => 0x02
  | .decode _ => 0x03
  | .csum _ _ => 0x04
  | .setcsum _ => 0x05

/-- The packet length the table gives an instruction (30_encoding.md R76). -/
def tableLength : Instr → Nat
  | .encode _ _ _ _ => 10
  | .encodeAck _ _ _ _ _ => 14
  | .decode data => 1 + data.length
  | .csum _ _ => 9
  | .setcsum _ => 3

/-- The packet of a well-formed instruction has the table's opcode first and the table's length. -/
def Laws.PacketShape.Statement (i : Instr) : Prop :=
  i.wf = true → (encode i).head? = some (tableOpcode i) ∧ (encode i).length = tableLength i

theorem Laws.PacketShape.encode (sport dport : Half) (seq : Word) (flags : Byte) :
    Laws.PacketShape.Statement (.encode sport dport seq flags) := fun _ => ⟨rfl, rfl⟩

theorem Laws.PacketShape.encodeAck (sport dport : Half) (seq acknum : Word) (flags : Byte) :
    Laws.PacketShape.Statement (.encodeAck sport dport seq acknum flags) := fun _ => ⟨rfl, rfl⟩

theorem Laws.PacketShape.decode (data : List Byte) : Laws.PacketShape.Statement (.decode data) :=
  fun _ => ⟨rfl, by simp [Sys2Proof.encode, tableLength]; omega⟩

theorem Laws.PacketShape.csum (srcip dstip : Word) : Laws.PacketShape.Statement (.csum srcip dstip) :=
  fun _ => ⟨rfl, rfl⟩

theorem Laws.PacketShape.setcsum (value : Half) : Laws.PacketShape.Statement (.setcsum value) := fun _ => ⟨rfl, rfl⟩

end Sys2Proof
end

