-- ==== Sys2Proof/Tests/Slice0.lean ====
section
/-! SUPPORT. Tests of the model on the vectors of 95_test_vectors.md, each about one step or one packet; and for every
statement with hypotheses a witness that they can be met, for each of its clauses, at the ends of its ranges. -/

namespace Sys2Proof.Machine.Tests

/-! ## Helpers -/

/-- The next state, where there is one. -/
def nextOf : Host.Outcome State Fault Refusal → Option State
  | .next s => some s
  | .fault _ => none
  | .refused _ => none

/-- The unit after reset with these header bytes, CSUM and STATUS. -/
def unit (header : List Byte) (csum : Half) (status : Byte) : State :=
  { State.reset with hdr := (List.range 20).zip header, csum := csum, status := status }

/-- The header bytes, CSUM and STATUS of an outcome's next state. -/
def shows (o : Host.Outcome State Fault Refusal) : Option (Option (List Byte) × Half × Byte) :=
  (nextOf o).map (fun s => (s.hdr.readFrom 0 20, s.csum, s.status))

/-- V1's header. -/
def synHeader : List Byte :=
  [0xD4, 0x31, 0x00, 0x50, 0x00, 0x00, 0x03, 0xE8, 0x00, 0x00, 0x00, 0x00, 0x50, 0x02, 0xFF, 0xFF, 0x00, 0x00, 0x00, 0x00]

/-- V2's segment. -/
def synAckSegment : List Byte :=
  [0x00, 0x50, 0xD4, 0x31, 0x12, 0x34, 0x56, 0x78, 0x00, 0x00, 0x03, 0xE9, 0x50, 0x12, 0xFF, 0xFF, 0x8A, 0x46, 0x00, 0x00]

/-- The first 20 bytes of V12's segment. -/
def oddHeader : List Byte :=
  [0x00, 0x50, 0xD4, 0x31, 0x00, 0x00, 0x00, 0x01, 0x00, 0x00, 0x00, 0x00, 0x6F, 0xD2, 0x12, 0x34, 0xAB, 0xCD, 0x00, 0x07]

/-- A unit with V1's header, as after the ENCODE. -/
def synUnit : State := unit synHeader 0 0x20

/-- A unit that has loaded V2's segment, checked it and then failed a command with an error. -/
def usedUnit : State := unit synAckSegment 0 0x72

/-- The address 192.168.215.3. -/
def addrA : Word := 0xC0A8D703

/-- The address 142.250.189.206. -/
def addrB : Word := 0x8EFABDCE

/-! ## Well-formedness and packets -/

/-- 30_encoding.md R78: a DECODE with one byte more than MAX_DECODE_LEN is refused. -/
theorem test_wf_decode_too_long : Instr.wf (.decode (List.replicate (Config.maxDecodeLen + 1) 0)) = false := by
  rw [Instr.wf, Bool.eq_false_iff, Ne, dataLenOk_iff]
  simp

/-- 30_encoding.md R78: a DECODE with MAX_DECODE_LEN bytes is well-formed, and so is one with none. -/
theorem test_wf_decode_longest : Instr.wf (.decode (List.replicate Config.maxDecodeLen 0)) = true ∧
    Instr.wf (.decode []) = true :=
  ⟨by rw [Instr.wf, dataLenOk_iff]; simp, rfl⟩

/-- V16: the packet of `ENCODE 0xFFFF, 0xFFFF, 0xFFFFFFFF, 0x3F`. -/
theorem test_decode_encode_extremes :
    decode [0x01, 0xFF, 0xFF, 0xFF, 0xFF, 0xFF, 0xFF, 0xFF, 0xFF, 0x3F] = .ok (.encode 0xFFFF 0xFFFF 0xFFFFFFFF 0x3F) := by
  decide

/-- V16: the packet of `ENCODE_ACK 0xFFFF, 0xFFFF, 0xFFFFAFA7, 0xFFFFFFFF, 0x3F`. -/
theorem test_decode_encodeAck_extremes :
    decode [0x02, 0xFF, 0xFF, 0xFF, 0xFF, 0xFF, 0xFF, 0xAF, 0xA7, 0xFF, 0xFF, 0xFF, 0xFF, 0x3F] =
      .ok (.encodeAck 0xFFFF 0xFFFF 0xFFFFAFA7 0xFFFFFFFF 0x3F) := by
  decide

/-- V4: a DECODE packet of the opcode alone is well-formed. -/
theorem test_decode_decode_empty : decode [0x03] = .ok (.decode []) := by decide

/-- P3 step 5: the packet of `CSUM B, A`. -/
theorem test_decode_csum : decode [0x04, 0x8E, 0xFA, 0xBD, 0xCE, 0xC0, 0xA8, 0xD7, 0x03] = .ok (.csum addrB addrA) := by
  decide

/-- P2 step 7: the packet of `SETCSUM 0x8A47`. -/
theorem test_decode_setcsum : decode [0x05, 0x8A, 0x47] = .ok (.setcsum 0x8A47) := by decide

/-- V5: packets that are no command. -/
theorem test_decode_illegal :
    decode [0x00] = .error (.illegalOpcode 0) ∧ decode [] = .error .emptyPacket ∧
    decode [0x06, 0x01, 0x02] = .error (.illegalOpcode 6) ∧ decode [0xFF] = .error (.illegalOpcode 0xFF) ∧
    decode [0x01, 0x00, 0x01, 0x00, 0x02, 0x00, 0x00, 0x00, 0x03] = .error (.wrongLength 10 9) ∧
    decode [0x01, 0x00, 0x01, 0x00, 0x02, 0x00, 0x00, 0x00, 0x03, 0x04, 0x00] = .error (.wrongLength 10 11) ∧
    decode [0x02, 0xD4, 0x31, 0x00, 0x50, 0x00, 0x00, 0x03, 0xE9, 0x12, 0x34, 0x56, 0x79] = .error (.wrongLength 14 13) ∧
    decode [0x04, 0xC0, 0xA8, 0xD7, 0x03, 0x8E, 0xFA, 0xBD] = .error (.wrongLength 9 8) ∧
    decode [0x05, 0x00, 0x01, 0x00] = .error (.wrongLength 3 4) ∧ decode [0x05, 0x00] = .error (.wrongLength 3 2) := by
  decide

/-- 30_encoding.md R77 in the table's numbering: pkt[0] is bits 7 to 0 and the first operand byte bits 15 to 8, so the
number of `05 F3 03` is 0x03F305. -/
theorem test_table_word_setcsum : decodeTableWord 24 0x03F305 = some (.setcsum 0xF303) := by decide

/-- The opcode of DECODE alone stands for a packet of 20 zero data bytes (log entry 12). -/
theorem test_table_word_decode : decodeTableWord 8 0x03 = some (.decode (List.replicate 20 0)) := by decide

/-- A table word placed by withFetchWord is what the very next step runs: V6's SETCSUM right after reset. -/
theorem test_fetch_word_runs_first :
    shows (step (State.reset.withFetchWord 24 0x341205)) = some (none, 0, 0x13) := by decide

/-! ## Commands, one step each -/

/-- V1: ENCODE. -/
theorem test_encode : shows (exec (.encode 54321 80 1000 0x02) State.reset) = some (some synHeader, 0, 0x20) := by
  decide

/-- V10, the row 0xC2: bits 7 and 6 of FLAGS are written as they are and masked on the FLAGS port. -/
theorem test_encode_flags_verbatim :
    ((nextOf (exec (.encode 54321 80 1000 0xC2) State.reset)).map
      (fun s => (readPort (.raw 13) s, readPort .flags s, s.status))) = some (some 0xC2, some 0x02, 0x20) := by
  decide

/-- V3: ENCODE_ACK. -/
theorem test_encodeAck : shows (exec (.encodeAck 54321 80 1001 0x12345679 0x10) State.reset) =
    some (some [0xD4, 0x31, 0x00, 0x50, 0x00, 0x00, 0x03, 0xE9, 0x12, 0x34, 0x56, 0x79, 0x50, 0x10, 0xFF, 0xFF, 0x00, 0x00,
      0x00, 0x00], 0, 0x20) := by
  decide

/-- V12: DECODE of 26 bytes keeps the first 20. -/
theorem test_decode_long :
    shows (exec (.decode (oddHeader ++ [0x02, 0x04, 0x05, 0xB4, 0xDE, 0xAD])) State.reset) =
      some (some oddHeader, 0, 0x20) := by
  decide

/-- V4: DECODE of 19 bytes fails, keeps HDR and clears HDR_VALID. -/
theorem test_decode_short :
    shows (exec (.decode (synAckSegment.take 19)) synUnit) = some (some synHeader, 0, 0x11) := by
  decide

/-- V1: CSUM, one fold. -/
theorem test_csum : shows (exec (.csum addrA addrB) synUnit) = some (some synHeader, 0xF303, 0x60) := by decide

/-- V9: CSUM, two folds. -/
theorem test_csum_two_folds :
    ((nextOf (exec (.csum 0xFFFFFFFF 0xFFFFFFFF) (unit [0xFF, 0xFF, 0xFF, 0xFF, 0xFF, 0xFF, 0xAF, 0xA7, 0xFF, 0xFF, 0xFF,
      0xFF, 0x50, 0x3F, 0xFF, 0xFF, 0x00, 0x00, 0x00, 0x00] 0 0x20))).map State.csum) = some 0xFFFE := by
  decide

/-- V1: SETCSUM. -/
theorem test_setcsum : shows (exec (.setcsum 0xF303) (unit synHeader 0xF303 0x60)) =
    some (some [0xD4, 0x31, 0x00, 0x50, 0x00, 0x00, 0x03, 0xE8, 0x00, 0x00, 0x00, 0x00, 0x50, 0x02, 0xFF, 0xFF, 0xF3, 0x03,
      0x00, 0x00], 0xF303, 0x60) := by
  decide

/-- V6: SETCSUM without a segment. -/
theorem test_setcsum_no_segment : shows (exec (.setcsum 0x1234) State.reset) = some (none, 0, 0x13) := by decide

/-! ## Ports and the checksum primitive -/

/-- V12: what the ports show of fields that no encoded header has. -/
theorem test_ports :
    [Port.doff, .flags, .flag .urg, .flag .ack, .flag .psh, .flag .rst, .flag .syn, .flag .fin, .window, .checksum,
      .urgptr, .raw 12, .raw 13].map (fun p => readPort p (unit oddHeader 0 0x20)) =
    [some 6, some 0x12, some 0, some 1, some 0, some 0, some 1, some 0, some 0x1234, some 0xABCD, some 7, some 0x6F,
      some 0xD2] := by
  decide

/-- V6: the ports after reset. -/
theorem test_ports_after_reset : allPorts.map (fun p => readPort p State.reset) =
    List.replicate 36 none ++ [some 0] := by
  decide

/-- V11: `ocsum` of sequences of any length. -/
theorem test_ocsum :
    ocsum [] = 0xFFFF ∧ ocsum [0x00, 0x00] = 0xFFFF ∧ ocsum [0xFF, 0xFF] = 0x0000 ∧ ocsum [0x01] = 0xFEFF ∧
    ocsum [0xFF] = 0x00FF ∧ ocsum [0x12, 0x34, 0x56] = 0x97CB ∧ ocsum [0xFF, 0xFF, 0x00, 0x01] = 0xFFFE ∧
    ocsum [0x45, 0x00, 0x00, 0x1C] = 0xBAE3 ∧ ocsum (List.replicate 32 0xFF) = 0x0000 := by
  decide

/-- V13: the ends of the fold loop. -/
theorem test_carryFold :
    [0x0000, 0x0001, 0xFFFF, 0x10000, 0x1FFFE, 0x50CF7, 0x5FFFA, 0xAFFF6, 0xFFFF0].map carryFold =
      [0x0000, 0x0001, 0xFFFF, 0x0001, 0xFFFF, 0x0CFC, 0xFFFF, 0x0001, 0xFFFF] := by
  decide

/-- 30_encoding.md R82: a line with flag symbols, and a word that is no number. -/
theorem test_assemble_symbols :
    assembleLine ['E', 'N', 'C', 'O', 'D', 'E', ' ', '1', ',', '2', ',', '3', ',', 'S', 'Y', 'N', '|', 'A', 'C', 'K'] =
      some [.deliver (.cmd [0x01, 0x00, 0x01, 0x00, 0x02, 0x00, 0x00, 0x00, 0x03, 0x12])] ∧
    assembleLine ['S', 'E', 'T', 'C', 'S', 'U', 'M', ' ', '0', 'x', 'G'] = none := by
  decide

/-! ## Witnesses: the statements' hypotheses can be met -/

/-- An outcome whose next state passes a check is that next state. -/
theorem next_of_check {o : Host.Outcome State Fault Refusal} {P : State → Prop} [DecidablePred P]
    (h : (nextOf o).any (fun s => decide (P s)) = true) : ∃ t, o = .next t ∧ P t := by
  cases o with
  | next s => exact ⟨s, rfl, by simpa [nextOf] using h⟩
  | fault r => simp [nextOf] at h
  | refused r => simp [nextOf] at h

/-- A unit whose last DECODE failed: HDR is written but not valid. -/
def failedUnit : State := unit synHeader 0xF303 0x51

/-- A DECODE packet of `n` zero data bytes. -/
def zeros (n : Nat) : List Byte := List.replicate n 0

/-- `wf(pkt)` as 30_encoding.md R78 writes it. -/
abbrev WfPacket (pkt : List Byte) : Prop :=
  1 ≤ pkt.length ∧
  ((pkt[0]? = some 0x01 ∧ pkt.length = 10) ∨ (pkt[0]? = some 0x02 ∧ pkt.length = 14) ∨
    (pkt[0]? = some 0x03 ∧ 1 ≤ pkt.length ∧ pkt.length ≤ 1 + Config.maxDecodeLen) ∨
    (pkt[0]? = some 0x04 ∧ pkt.length = 9) ∨ (pkt[0]? = some 0x05 ∧ pkt.length = 3))

/-- A packet of an opcode and a number of zero bytes. -/
def packet (op : Byte) (n : Nat) : List Byte := op :: zeros n

theorem length_packet (op : Byte) (n : Nat) : (packet op n).length = n + 1 := by simp [packet, zeros]

theorem witness_OpcodeSelectsCommandAndOperands :
    (zeros 0).length ≤ Config.maxDecodeLen ∧ (zeros Config.maxDecodeLen).length ≤ Config.maxDecodeLen := by
  simp [zeros]

theorem witness_DecodeOfEncodeIsTheInstruction :
    Instr.wf (.encode 0xFFFF 0 0xFFFFFFFF 0xFF) = true ∧ Instr.wf (.encodeAck 0 0xFFFF 0 0xFFFFFFFF 0xC0) = true ∧
    Instr.wf (.decode (zeros Config.maxDecodeLen)) = true ∧ Instr.wf (.decode []) = true ∧
    Instr.wf (.csum 0 0xFFFFFFFF) = true ∧ Instr.wf (.setcsum 0xFFFF) = true :=
  ⟨rfl, rfl, test_wf_decode_longest.1, rfl, rfl, rfl⟩

theorem witness_EncodeOfDecodeIsThePacket :
    decode [0x03] = .ok (.decode []) ∧ decode [0x05, 0xFF, 0xFF] = .ok (.setcsum 0xFFFF) := by decide

theorem witness_PacketIsACommandExactlyWhenWellFormed :
    (WfPacket (packet 1 9) ∧ WfPacket (packet 2 13) ∧ WfPacket (packet 3 0) ∧ WfPacket (packet 3 Config.maxDecodeLen) ∧
      WfPacket (packet 4 8) ∧ WfPacket (packet 5 2)) ∧
    (¬ WfPacket [] ∧ ¬ WfPacket (packet 0 0) ∧ ¬ WfPacket (packet 3 (Config.maxDecodeLen + 1)) ∧
      ¬ WfPacket (packet 1 8)) ∧
    ((packet 3 0)[0]? = some 0x03 ∧ (packet 3 0).length < 21 ∧ (packet 3 19)[0]? = some 0x03 ∧
      (packet 3 19).length < 21) := by
  simp only [WfPacket, length_packet]
  simp [packet, zeros]
  omega

theorem witness_IllegalPacketsRaiseIllegalCommand :
    (∃ op ∈ (packet 0x00 0).head?, op.toNat = 0 ∨ 5 < op.toNat) ∧
    (∃ op ∈ (packet 0x06 2).head?, op.toNat = 0 ∨ 5 < op.toNat) ∧
    (∃ op ∈ (packet 0xFF 0).head?, op.toNat = 0 ∨ 5 < op.toNat) ∧
    ((packet 0x01 8).head? = some 0x01 ∧ (packet 0x01 8).length ≠ 10) ∧
    ((packet 0x02 14).head? = some 0x02 ∧ (packet 0x02 14).length ≠ 14) ∧
    ((packet 0x04 7).head? = some 0x04 ∧ (packet 0x04 7).length ≠ 9) ∧
    ((packet 0x05 3).head? = some 0x05 ∧ (packet 0x05 3).length ≠ 3) ∧
    ((packet 0x03 (Config.maxDecodeLen + 1)).head? = some 0x03 ∧
      Config.maxDecodeLen + 1 < (packet 0x03 (Config.maxDecodeLen + 1)).length) := by
  simp [packet, zeros]

theorem witness_EncodeWritesAFreshHeader :
    ((packet 0x01 8).head? = some 0x01 ∧ (packet 0x01 8).length ≠ 10) ∧
    ((packet 0x01 10).head? = some 0x01 ∧ (packet 0x01 10).length ≠ 10) := by decide

theorem witness_EncodeAckWritesAFreshHeader :
    ((packet 0x02 12).head? = some 0x02 ∧ (packet 0x02 12).length ≠ 14) ∧
    ((packet 0x02 14).head? = some 0x02 ∧ (packet 0x02 14).length ≠ 14) := by decide

theorem witness_Bytes12And13AndTheirPorts :
    20 ≤ (zeros 20).length ∧
    ((unit oddHeader 0 0x20).hdrValid = true ∧ (unit oddHeader 0 0x20).hdr.read 12 = some 0x6F) ∧
    ((unit oddHeader 0 0x20).hdrValid = true ∧ (unit oddHeader 0 0x20).hdr.read 13 = some 0xD2) ∧
    ((0x50 : Byte).toNat / 16 = (0x5F : Byte).toNat / 16 ∧ Port.doff ≠ .raw 12) ∧
    ((0x12 : Byte).toNat % 64 = (0xD2 : Byte).toNat % 64 ∧ Port.flags ≠ .raw 13) := by decide

theorem witness_DecodeLoadsTheHeader :
    20 ≤ (zeros 20).length ∧ (zeros 19).length < 20 ∧ (zeros 0).length < 20 ∧
    Config.maxDecodeLen < (zeros (Config.maxDecodeLen + 1)).length := by
  simp [zeros]

theorem witness_DecodeIgnoresTheTailAndReproducesHdr :
    synHeader.length = 20 ∧ (synUnit.Inv ∧ synUnit.hdr.readFrom 0 20 = some synHeader) ∧
    (failedUnit.Inv ∧ failedUnit.hdr.readFrom 0 20 = some synHeader) := by decide

theorem witness_SetcsumWritesTheChecksumField :
    synUnit.hdrValid = true ∧ usedUnit.hdrValid = true ∧ State.reset.hdrValid = false ∧ failedUnit.hdrValid = false ∧
    ((packet 0x05 1).head? = some 0x05 ∧ (packet 0x05 1).length ≠ 3) ∧
    ((packet 0x05 3).head? = some 0x05 ∧ (packet 0x05 3).length ≠ 3) := by decide

theorem witness_FieldPortsReadBigEndian :
    usedUnit.hdrValid = true ∧ ∀ i : Fin 20, usedUnit.hdr.read i.val = some (synAckSegment.getD i.val 0) := by decide

theorem witness_FlagPortsReadTheirBit :
    (usedUnit.hdrValid = true ∧ usedUnit.hdr.read 13 = some 0x12) ∧
    ((unit oddHeader 0 0x20).hdrValid = true ∧ (unit oddHeader 0 0x20).hdr.read 13 = some 0xD2) := by decide

theorem witness_WindowChecksumAndUrgptrPorts :
    (unit oddHeader 0 0x20).hdrValid = true ∧
    ∀ i : Fin 20, (unit oddHeader 0 0x20).hdr.read i.val = some (oddHeader.getD i.val 0) := by decide

theorem witness_PortsWithoutAValueFault :
    (State.reset.hdrValid = false ∧ failedUnit.hdrValid = false ∧ Port.srcPort ≠ .csumOut ∧ Port.srcPort ≠ .statusOut ∧
      Port.raw 19 ≠ .csumOut ∧ Port.raw 19 ≠ .statusOut) ∧
    State.reset.csumValid = false ∧ synUnit.csumValid = false := by decide

theorem witness_ReadsChangeNothing :
    readPort .statusOut State.reset = some 0 ∧ readPort .seq usedUnit = some 0x12345678 ∧
    readPort .csumOut usedUnit = some 0 ∧ readPort (.raw 19) synUnit = some 0 := by decide

theorem witness_ReadsAreRecorded :
    readPort .statusOut State.reset = some 0 ∧ readPort (.raw 19) synUnit = some 0 ∧
    ((∀ p, Event.reset ≠ .read p) ∧ ∃ t, runEvent .reset usedUnit = .next t ∧ t.hdr = []) ∧
    ((∀ p, Event.cmd [0x03] ≠ .read p) ∧ ∃ t, runEvent (.cmd [0x03]) usedUnit = .next t ∧ t.err = 1) :=
  ⟨by decide, by decide, ⟨by simp, next_of_check (by decide)⟩, by simp, next_of_check (by decide)⟩

theorem witness_MixedWidthViewsAgree :
    ((Port.srcPort, (0 : Fin 19)) ∈ ([(.srcPort, 0), (.dstPort, 2), (.window, 14), (.checksum, 16), (.urgptr, 18)] :
        List (Port × Fin 19)) ∧ readPort .srcPort usedUnit = some 80) ∧
    ((Port.urgptr, (18 : Fin 19)) ∈ ([(.srcPort, 0), (.dstPort, 2), (.window, 14), (.checksum, 16), (.urgptr, 18)] :
        List (Port × Fin 19)) ∧ readPort .urgptr (unit oddHeader 0 0x20) = some 7) ∧
    readPort .seq usedUnit = some 0x12345678 ∧ readPort .acknum usedUnit = some 1001 ∧
    readPort .doff usedUnit = some 5 ∧ readPort .flags usedUnit = some 0x12 := by decide

theorem witness_EncodedFieldsReadBack : (0x00 : Byte).toNat < 0x40 ∧ (0x3F : Byte).toNat < 0x40 := by decide

theorem witness_CsumFoldsAtMostTwice : 0xFFFF < 0x10000 ∧ synHeader.length = 20 ∧ 0xFFFF0 ≤ 0xFFFF0 ∧ 0 ≤ 0xFFFF0 := by
  decide

theorem witness_FoldHasItsClosedForm :
    0 < 1 ∧ ([((1 : Byte), (2 : Byte)), (3, 4)]).Perm [(3, 4), (1, 2)] ∧ ([] : List Byte).length % 2 = 0 ∧
    ([1, 2] : List Byte).length % 2 = 0 ∧ synHeader.length % 2 = 0 := by decide

theorem witness_PseudoHeaderAndBufferLayout : synHeader.length = 20 ∧ 0 < 10 ∧ 9 < 10 := by decide

theorem witness_CsumWritesTheChecksum :
    (synUnit.hdrValid = true ∧ synUnit.hdr.readFrom 0 20 = some synHeader) ∧
    (usedUnit.hdrValid = true ∧ usedUnit.hdr.readFrom 0 20 = some synAckSegment) ∧
    State.reset.hdrValid = false ∧ failedUnit.hdrValid = false ∧
    ((packet 0x04 7).head? = some 0x04 ∧ (packet 0x04 7).length ≠ 9) ∧
    ((packet 0x04 9).head? = some 0x04 ∧ (packet 0x04 9).length ≠ 9) := by decide

theorem witness_CsumResultIsNeverFFFF :
    (synUnit.hdrValid = true ∧ ∃ t, exec (.csum addrA addrB) synUnit = .next t ∧ t.csum = 0xF303) ∧
    ((unit (headerImage 54321 80 63211 0 0x02) 0 0x20).hdrValid = true ∧
      (unit (headerImage 54321 80 63211 0 0x02) 0 0x20).hdr.readFrom 0 20 = some (headerImage 54321 80 63211 0 0x02)) :=
  ⟨⟨by decide, next_of_check (by decide)⟩, by decide⟩

theorem witness_InsertedChecksumVerifies :
    synUnit.Inv ∧ synUnit.hdrValid = true ∧ readPort .checksum synUnit = some 0 := by decide

theorem witness_ChecksumInsertedAndZeroedComesBack :
    (unit synHeader 0xF303 0x71).Inv ∧ (unit synHeader 0xF303 0x71).hdrValid = true ∧
    readPort .checksum (unit synHeader 0xF303 0x71) = some 0 := by decide

theorem witness_CsumDependsOnHdrAndAddressesAlone :
    synUnit.Inv ∧ (unit synHeader 0xF303 0x72).Inv ∧ synUnit.hdrValid = true ∧
    (unit synHeader 0xF303 0x72).hdrValid = true ∧
    ∀ i : Fin 20, synUnit.hdr.read i.val = (unit synHeader 0xF303 0x72).hdr.read i.val := by decide

theorem witness_StatusBit7IsHardwiredZero :
    (usedUnit.status.getLsbD 7 = false ∧ ∃ t, runEvent (.cmd []) usedUnit = .next t ∧ t.err = 2) ∧
    ∃ t, exec (.setcsum 0) (unit synHeader 0 0xFF) = .next t ∧ t.err = 0 :=
  ⟨⟨by decide, next_of_check (by decide)⟩, next_of_check (by decide)⟩

theorem witness_ErrHoldsTheLastCommandsOutcome :
    (∃ t, runPacket [0x05, 0x00, 0x00] failedUnit = .next t ∧ t.err = 3) ∧
    (∃ t, runPacket [0x03] usedUnit = .next t ∧ t.err = 1) ∧ (∃ t, runPacket [] usedUnit = .next t ∧ t.err = 2) ∧
    (∃ t, runEvent (.read .statusOut) usedUnit = .next t ∧ t.err = 2) ∧
    ∃ t, runEvent .reset usedUnit = .next t ∧ t.err = 0 :=
  ⟨next_of_check (by decide), next_of_check (by decide), next_of_check (by decide), next_of_check (by decide),
    next_of_check (by decide)⟩

theorem witness_ErrSeenIsSticky :
    (∃ t, runPacket [0x03] synUnit = .next t ∧ t.err ≠ 0) ∧ (∃ t, runPacket [0x05, 0x00, 0x00] synUnit = .next t ∧ t.err = 0) ∧
    (∃ t, runEvent (.cmd [0x05, 0x00, 0x00]) usedUnit = .next t ∧ usedUnit.errSeen = true ∧
      Event.cmd [0x05, 0x00, 0x00] ≠ .reset) ∧
    ∃ t, runEvent .reset usedUnit = .next t ∧ t.hdr = [] :=
  ⟨next_of_check (by decide), next_of_check (by decide), next_of_check (by decide), next_of_check (by decide)⟩

theorem witness_NoErrorRecordedMeansEveryCommandSucceeded :
    ∃ t, runEvents ([Event.reset] ++ [.cmd (packet 0x01 9)]) usedUnit = .next t ∧
      ∃ u, runEvents [.read .statusOut] t = .next u ∧ Event.reset ∉ [Event.read .statusOut] ∧ u.noErrorRecorded = true := by
  obtain ⟨t, ht, h⟩ := next_of_check (o := runEvents ([Event.reset] ++ [.cmd (packet 0x01 9)]) usedUnit)
    (P := fun t => (nextOf (runEvents [.read .statusOut] t)).any
      (fun u => decide (Event.reset ∉ [Event.read .statusOut] ∧ u.noErrorRecorded = true)) = true) (by decide)
  exact ⟨t, ht, next_of_check h⟩

theorem witness_ErrorsWriteNothingElse :
    (∃ t, runPacket [0x03] synUnit = .next t ∧ t.err ≠ 0 ∧ t.err = 1) ∧
    (∃ t, runPacket [0x06] synUnit = .next t ∧ t.err ≠ 0 ∧ t.err ≠ 1) ∧ (zeros 0).length < 20 ∧ (zeros 19).length < 20 ∧
    Port.raw 0 ≠ .csumOut ∧ Port.raw 0 ≠ .statusOut :=
  ⟨next_of_check (by decide), next_of_check (by decide), by decide⟩

theorem witness_SuccessWritesOnlyItsOwnValidBits :
    20 ≤ (zeros 20).length ∧ (usedUnit.hdrValid = true ∧ usedUnit.hdrWritten = true) ∧ synUnit.hdrValid = true ∧
    (∃ t, exec (.decode (zeros 20)) failedUnit = .next t ∧ t.err = 0) ∧
    (∃ t, exec (.csum addrA addrB) usedUnit = .next t ∧ t.err = 0) ∧
    ∃ t, exec (.setcsum 0) usedUnit = .next t ∧ t.err = 0 :=
  ⟨by decide, by decide, by decide, next_of_check (by decide), next_of_check (by decide), next_of_check (by decide)⟩

theorem witness_NoSegmentIsRaisedWithoutASegment :
    failedUnit.hdrValid = false ∧ (∃ t, exec (.csum 0 0) failedUnit = .next t ∧ t.err = 3) ∧
    (∃ t, exec (.setcsum 0) State.reset = .next t ∧ t.err = 3) ∧ (zeros 0).length < 20 ∧ (zeros 19).length < 20 ∧
    20 ≤ (zeros 20).length ∧
    (∃ t, runEvent (.cmd (packet 0x01 9)) State.reset = .next t ∧ State.reset.hdrValid = false ∧ t.hdrValid = true) ∧
    (∃ t, runEvent (.cmd (packet 0x02 13)) failedUnit = .next t ∧ failedUnit.hdrValid = false ∧ t.hdrValid = true) ∧
    ∃ t, runEvent (.cmd (packet 0x03 20)) failedUnit = .next t ∧ failedUnit.hdrValid = false ∧ t.hdrValid = true :=
  ⟨by decide, next_of_check (by decide), next_of_check (by decide), by decide, by decide, by decide,
    next_of_check (by decide), next_of_check (by decide), next_of_check (by decide)⟩

theorem witness_HdrValidLifetime :
    20 ≤ (zeros 20).length ∧ (zeros 19).length < 20 ∧
    (∃ t, runEvent .reset synUnit = .next t ∧ t.hdrValid ≠ synUnit.hdrValid) ∧
    (∃ t, runEvent (.cmd [0x03]) synUnit = .next t ∧ t.hdrValid ≠ synUnit.hdrValid) ∧
    (∃ t, runEvent (.cmd (packet 0x02 13)) State.reset = .next t ∧ t.hdrValid ≠ State.reset.hdrValid) ∧
    State.reset.hdrValid = false ∧ Port.checksum ≠ .csumOut ∧ Port.checksum ≠ .statusOut :=
  ⟨by decide, by decide, next_of_check (by decide), next_of_check (by decide), next_of_check (by decide), by decide⟩

theorem witness_CsumRegisterLifetime :
    (synUnit.hdr.readFrom 0 20 = some synHeader ∧ ∃ t, exec (.csum 0 0) synUnit = .next t ∧ t.err = 0) ∧
    (∃ t, exec (.csum 0 0) State.reset = .next t ∧ t.err ≠ 0) ∧
    ((∀ a b, Instr.setcsum 0 ≠ .csum a b) ∧ ∃ t, exec (.setcsum 0) usedUnit = .next t ∧ t.err = 0) ∧
    (∃ t, runEvent (.cmd [0x03]) usedUnit = .next t ∧ Event.cmd [0x03] ≠ .reset ∧ usedUnit.csumValid = true) ∧
    (∃ t, runEvent (.cmd (packet 0x04 8)) synUnit = .next t ∧ synUnit.csumValid = false ∧ t.csumValid = true) ∧
    State.reset.csumValid = false ∧ failedUnit.csumValid = true :=
  ⟨⟨by decide, next_of_check (by decide)⟩, next_of_check (by decide), ⟨by simp, next_of_check (by decide)⟩,
    next_of_check (by decide), next_of_check (by decide), by decide⟩

theorem witness_CommandsLeaveAllElseUnchanged :
    (∃ t, exec (.encode 1 2 3 0) usedUnit = .next t ∧ t.err = 0) ∧
    (∃ t, exec (.encodeAck 1 2 3 4 0) State.reset = .next t ∧ t.err = 0) ∧
    (∃ t, exec (.decode (zeros 20)) failedUnit = .next t ∧ 20 ≤ (zeros 20).length) ∧
    (∃ t, exec (.decode (zeros 19)) usedUnit = .next t ∧ (zeros 19).length < 20) ∧
    (∃ t, exec (.csum addrA addrB) synUnit = .next t ∧ synUnit.hdrValid = true) ∧
    (∃ t, exec (.csum addrA addrB) failedUnit = .next t ∧ failedUnit.hdrValid = false) ∧
    (∃ t, exec (.setcsum 0xFFFF) synUnit = .next t ∧ synUnit.hdrValid = true) ∧
    ∃ t, exec (.setcsum 0xFFFF) State.reset = .next t ∧ State.reset.hdrValid = false :=
  ⟨next_of_check (by decide), next_of_check (by decide), next_of_check (by decide), next_of_check (by decide),
    next_of_check (by decide), next_of_check (by decide), next_of_check (by decide), next_of_check (by decide)⟩

theorem witness_ResetKeepsNothingAndRepeats : usedUnit.hostSame synUnit ∧ usedUnit.hostSame State.reset := by decide

theorem witness_StepKeepsInv :
    ({ usedUnit with inbox := [.cmd [0x03], .reset] } : State).Inv ∧
    (∃ t, step { usedUnit with inbox := [.cmd [0x03], .reset] } = .next t ∧ t.inbox = [.reset]) ∧
    ({ failedUnit with inbox := [.read .csumOut] } : State).Inv ∧
    ∃ t, step { failedUnit with inbox := [.read .csumOut] } = .next t ∧ t.returned = [(.csumOut, 0xF303)] :=
  ⟨by decide, next_of_check (by decide), by decide, next_of_check (by decide)⟩

theorem witness_StepRunsTheDecodedPacket :
    (({ usedUnit with inbox := [.cmd [0x05, 0xF3, 0x03], .reset] } : State).inbox = .cmd [0x05, 0xF3, 0x03] :: [.reset] ∧
      decode [0x05, 0xF3, 0x03] = .ok (.setcsum 0xF303)) ∧
    decodeTableWord 24 0x03F305 = some (.setcsum 0xF303) ∧ decodeTableWord 8 0x04 = some (.csum 0 0) := by decide

theorem witness_StepTakesTheOldestDelivery :
    (({ usedUnit with inbox := [.cmd [0xFF]] } : State).inbox = .cmd [0xFF] :: [] ∧
      decode [0xFF] = .error (.illegalOpcode 0xFF)) ∧
    ({ usedUnit with inbox := [.reset] } : State).inbox = .reset :: [] ∧
    (({ usedUnit with inbox := [.read .csumOut] } : State).inbox = .read .csumOut :: [] ∧
      readPort .csumOut { usedUnit with inbox := [.read .csumOut] } = some 0) ∧
    (({ synUnit with inbox := [.read .csumOut] } : State).inbox = .read .csumOut :: [] ∧
      readPort .csumOut { synUnit with inbox := [.read .csumOut] } = none) ∧
    State.reset.inbox = [] := by decide

theorem witness_OnlyAReadWithoutValueFaults :
    usedUnit.Inv ∧ State.reset.Inv ∧ ({ synUnit with inbox := [.read .csumOut] } : State).Inv ∧
    step { synUnit with inbox := [.read .csumOut] } = .fault (.portHasNoValue .csumOut) :=
  ⟨by decide, by decide, by decide, rfl⟩

theorem witness_ReadsCanBeLeftOut :
    ∃ t, runEvents [.read .statusOut, .cmd (packet 0x01 9), .read (.raw 13), .read .doff] State.reset = .next t ∧
      t.returned = [(.statusOut, 0), (.raw 13, 0), (.doff, 5)] := next_of_check (by decide)

/-- Two units, each with one delivery. -/
def twoUnits : System := { units := [{ synUnit with inbox := [.reset] }, { usedUnit with inbox := [.cmd [0x03]] }] }

theorem witness_UnitsShareNothing :
    ((∃ z, twoUnits.stepUnit 0 = .next z) ∧ 1 ≠ 0) ∧
    ((1 : Nat) ≠ 0 ∧ twoUnits.deliver 0 .reset = twoUnits.deliver 0 .reset) ∧
    twoUnits.units[1]? = ({ units := [State.reset, { usedUnit with inbox := [.cmd [0x03]] }] } : System).units[1]? ∧
    ∃ z, twoUnits.stepUnit 1 = .next z :=
  ⟨⟨⟨_, rfl⟩, by decide⟩, ⟨by decide, rfl⟩, rfl, ⟨_, rfl⟩⟩

theorem witness_SystemsKeepEveryUnitsInv : System.reset.Inv ∧ ∃ z, System.reset.stepUnit 0 = .next z := by
  refine ⟨⟨by simp [System.reset], fun s hs => ?_⟩, ?_⟩
  · rw [List.eq_of_mem_replicate hs]
    decide
  · have h : System.reset.units[0]? = some State.reset := by simp [System.reset, Config.nUnits]
    exact ⟨_, by simp only [System.stepUnit, h]; rfl⟩

theorem witness_InscsumMakesVerifyPass :
    (synUnit.Inv ∧ synUnit.hdrValid = true) ∧ (usedUnit.Inv ∧ usedUnit.hdrValid = true) := by decide

theorem witness_TransmitReturnsTheFinishedSegment :
    (Instr.encode 54321 80 1000 0x02 = .encode 54321 80 1000 0x02 ∧ synHeader = headerImage 54321 80 1000 0 0x02) ∧
    (Instr.encodeAck 0xFFFF 0 0 0xFFFFFFFF 0xFF = .encodeAck 0xFFFF 0 0 0xFFFFFFFF 0xFF ∧
      headerImage 0xFFFF 0 0 0xFFFFFFFF 0xFF = headerImage 0xFFFF 0 0 0xFFFFFFFF 0xFF) := by decide

end Sys2Proof.Machine.Tests
end

section
/-! PROOFS. One step, by its oldest delivery: the equations of `step`, `runPacket` and `runRead`, one per case, and the two
statements on a step's dispatch (00_scope.md section 3). -/

namespace Sys2Proof.Machine

/-! ## The equations of one step and one delivery -/

theorem step_of_inbox_nil {s : State} (h : s.inbox = []) : step s = .next s := by
  simp only [step, h]

theorem step_of_inbox_cons {s : State} {e : Event} {rest : List Event} (h : s.inbox = e :: rest) :
    step s = runEvent e { s with inbox := rest } := by
  simp only [step, h]

theorem runPacket_of_decode_ok {pkt : List Byte} {i : Instr} (h : decode pkt = .ok i) (s : State) :
    runPacket pkt s = exec i s := by
  simp only [runPacket, h]

theorem runPacket_of_decode_error {pkt : List Byte} {e : DecodeError} (h : decode pkt = .error e) (s : State) :
    runPacket pkt s = .next (s.raiseError .illegalCommand) := by
  simp only [runPacket, h]

theorem runRead_of_value {p : Port} {s : State} {v : Nat} (h : readPort p s = some v) :
    runRead p s = .next { s with returned := s.returned ++ [(p, v)] } := by
  simp only [runRead, h]

theorem runRead_of_no_value {p : Port} {s : State} (h : readPort p s = none) :
    runRead p s = .fault (.portHasNoValue p) := by
  simp only [runRead, h]

/-- A table word that names an instruction is a packet that decodes to it. -/
theorem decode_tablePacket_of_decodeTableWord {nbits w : Nat} {i : Instr} (h : decodeTableWord nbits w = some i) :
    decode (tablePacket nbits w) = .ok i := by
  unfold decodeTableWord at h
  cases hd : decode (tablePacket nbits w) with
  | ok j =>
    rw [hd] at h
    exact congrArg Except.ok (Option.some.inj h)
  | error e =>
    rw [hd] at h
    cases h

/-! ## One step, by its oldest delivery -/

/-- The dispatch of a command packet (40_codec.md R90). -/
theorem step_of_packet_ok {s : State} {pkt : List Byte} {rest : List Event} {i : Instr}
    (hs : s.inbox = .cmd pkt :: rest) (hd : decode pkt = .ok i) : step s = exec i { s with inbox := rest } :=
  (step_of_inbox_cons hs).trans (runPacket_of_decode_ok hd _)

/-- An illegal packet is checked first and ends in ILLEGAL_COMMAND (60_exceptions.md R141, R145). -/
theorem step_of_packet_error {s : State} {pkt : List Byte} {rest : List Event} {e : DecodeError}
    (hs : s.inbox = .cmd pkt :: rest) (hd : decode pkt = .error e) :
    step s = .next (({ s with inbox := rest } : State).raiseError .illegalCommand) :=
  (step_of_inbox_cons hs).trans (runPacket_of_decode_error hd _)

theorem step_of_reset {s : State} {rest : List Event} (hs : s.inbox = .reset :: rest) :
    step s = .next ({ s with inbox := rest } : State).assertReset :=
  step_of_inbox_cons hs

/-- A Read of a port with a value changes HOST's side alone (10_state.md R27). -/
theorem step_of_read_value {s : State} {p : Port} {rest : List Event} {v : Nat}
    (hs : s.inbox = .read p :: rest) (hv : readPort p s = some v) :
    step s = .next { s with inbox := rest, returned := s.returned ++ [(p, v)] } :=
  (step_of_inbox_cons hs).trans (runRead_of_value ((readPort_with_inbox p s rest).trans hv))

/-- A Read of a port without a value stops the machine (40_codec.md R116). -/
theorem step_of_read_no_value {s : State} {p : Port} {rest : List Event}
    (hs : s.inbox = .read p :: rest) (hv : readPort p s = none) : step s = .fault (.portHasNoValue p) :=
  (step_of_inbox_cons hs).trans (runRead_of_no_value ((readPort_with_inbox p s rest).trans hv))

/-! ## The obligations -/

/-- Settles O46: a table word is a packet at the head of the inbox, so both clauses are the dispatch of a packet. -/
theorem stepRunsTheDecodedPacket : Obligations.StepRunsTheDecodedPacket :=
  ⟨fun _ _ _ _ hs hd => step_of_packet_ok hs hd,
    fun s nbits w _ hw =>
      step_of_packet_ok (s := s.withFetchWord nbits w) rfl (decode_tablePacket_of_decodeTableWord hw)⟩

/-- Settles O47, by the kind of the oldest delivery. -/
theorem stepTakesTheOldestDelivery : Obligations.StepTakesTheOldestDelivery := by
  refine ⟨?packet, ?reset, ?value, ?noValue, ?nothing⟩
  case packet =>
    intro s pkt rest e hs hd
    exact ⟨_, step_of_packet_error hs hd, State.failsAs_raiseError _ .illegalCommand⟩
  case reset =>
    intro s rest hs
    exact ⟨_, step_of_reset hs, by simp⟩
  case value => exact fun _ _ _ _ hs hv => step_of_read_value hs hv
  case noValue => exact fun _ _ _ hs hv => step_of_read_no_value hs hv
  case nothing => exact fun _ hs => step_of_inbox_nil hs

end Sys2Proof.Machine
end

section
/-! PROOFS. The outcomes of a delivery, said once for the statements on the state (10_state.md): the one next state of each
command in each of its cases, the three ways a packet can end, and what a read and a sequence of deliveries come to. -/

namespace Sys2Proof.Machine

/-! ## One command, by its instruction -/

theorem exec_encode (sport dport : Half) (seq : Word) (flags : Byte) (s : State) :
    exec (.encode sport dport seq flags) s =
      .next (State.succeed true s.csumValid { s with hdr := s.hdr.packHeader sport dport seq 0 flags }) := rfl

theorem exec_encodeAck (sport dport : Half) (seq acknum : Word) (flags : Byte) (s : State) :
    exec (.encodeAck sport dport seq acknum flags) s =
      .next (State.succeed true s.csumValid { s with hdr := s.hdr.packHeader sport dport seq acknum flags }) := rfl

theorem exec_encode_next {sport dport : Half} {seq : Word} {flags : Byte} {s t : State}
    (h : exec (.encode sport dport seq flags) s = .next t) :
    t = State.succeed true s.csumValid { s with hdr := s.hdr.packHeader sport dport seq 0 flags } :=
  (Host.Outcome.next.inj h).symm

theorem exec_encodeAck_next {sport dport : Half} {seq acknum : Word} {flags : Byte} {s t : State}
    (h : exec (.encodeAck sport dport seq acknum flags) s = .next t) :
    t = State.succeed true s.csumValid { s with hdr := s.hdr.packHeader sport dport seq acknum flags } :=
  (Host.Outcome.next.inj h).symm

theorem exec_decode_next {data : List Byte} {s t : State} (h : exec (.decode data) s = .next t) :
    (20 ≤ data.length ∧ t = State.succeed true s.csumValid { s with hdr := s.hdr.loadHeader data }) ∨
    (data.length < 20 ∧ t = s.raiseMalformed) := by
  simpa using exec_next_cases h

theorem exec_csum_next {srcip dstip : Word} {s t : State} (h : exec (.csum srcip dstip) s = .next t) :
    (s.hdrValid = true ∧ ∃ header, s.hdr.readFrom 0 20 = some header ∧
      t = State.succeed true true { s with csum := ocsum (checksumBuffer srcip dstip header) }) ∨
    (s.hdrValid = false ∧ t = s.raiseError .noSegment) := by
  simpa using exec_next_cases h

theorem exec_setcsum_next {value : Half} {s t : State} (h : exec (.setcsum value) s = .next t) :
    (s.hdrValid = true ∧ t = State.succeed true s.csumValid { s with hdr := s.hdr.write16 16 value }) ∨
    (s.hdrValid = false ∧ t = s.raiseError .noSegment) := by
  simpa using exec_next_cases h

/-! ## How a command ends -/

/-- The three ways a command ends: it raises nothing (40_codec.md R91), or raises an error with the common outcome
(60_exceptions.md R143), or with that of a MALFORMED_SEGMENT (R144). HOST's side has no part in any of them. -/
inductive CommandEnds (s : State) : State → Prop
  | success (m : Memory) (c : Half) (hdrValid csumValid : Bool) :
    CommandEnds s (State.succeed hdrValid csumValid { s with hdr := m, csum := c })
  | error (e : ErrCode) (he : e ≠ .ok) : CommandEnds s (s.raiseError e)
  | malformed : CommandEnds s s.raiseMalformed

theorem commandEnds_of_exec {i : Instr} {s t : State} (h : exec i s = .next t) : CommandEnds s t := by
  rcases exec_next_cases h with ⟨_, _, _, _, -, rfl⟩ | ⟨_, _, _, _, _, -, rfl⟩ | ⟨_, -, -, rfl⟩ | ⟨_, -, -, rfl⟩ |
    ⟨_, _, _, -, -, -, rfl⟩ | ⟨_, -, -, rfl⟩ | ⟨-, -, rfl⟩
  · exact .success _ s.csum _ _
  · exact .success _ s.csum _ _
  · exact .success _ s.csum _ _
  · exact .malformed
  · exact .success s.hdr _ _ _
  · exact .success _ s.csum _ _
  · exact .error _ (by decide)

/-- The next state of a packet is its command's, or the ILLEGAL_COMMAND outcome (40_codec.md R90). -/
theorem runPacket_next_cases {pkt : List Byte} {s t : State} (h : runPacket pkt s = .next t) :
    (∃ i, decode pkt = .ok i ∧ exec i s = .next t) ∨
    ((∃ e, decode pkt = .error e) ∧ t = s.raiseError .illegalCommand) := by
  rcases runPacket_cases pkt s with ⟨i, hd, hr⟩ | ⟨hd, hr⟩
  · exact .inl ⟨i, hd, hr ▸ h⟩
  · exact .inr ⟨hd, (Host.Outcome.next.inj (hr.symm.trans h)).symm⟩

theorem commandEnds_of_runPacket {pkt : List Byte} {s t : State} (h : runPacket pkt s = .next t) :
    CommandEnds s t := by
  rcases runPacket_next_cases h with ⟨_, -, hi⟩ | ⟨-, rfl⟩
  · exact commandEnds_of_exec hi
  · exact .error _ (by decide)

theorem errBits_ne_zero {e : ErrCode} (he : e ≠ .ok) : errBits e ≠ 0 := by
  cases e with
  | ok => exact absurd rfl he
  | malformedSegment | illegalCommand | noSegment => decide

section CommandEnds
variable {s t : State}

/-- STATUS is written by packing its fields, so bit 7 is 0 whatever it was (10_state.md R26). -/
theorem CommandEnds.status_bit7 (h : CommandEnds s t) : t.status.getLsbD 7 = false := by
  cases h <;> exact packStatus_bit7 ..

theorem CommandEnds.hostSame (h : CommandEnds s t) : s.hostSame t := by
  cases h <;> simp [State.hostSame]

theorem CommandEnds.errSeen_of_err_ne_zero (h : CommandEnds s t) (he : t.err ≠ 0) : t.errSeen = true := by
  cases h with
  | success => simp at he
  | error => simp
  | malformed => simp

theorem CommandEnds.errSeen_of_err_eq_zero (h : CommandEnds s t) (he : t.err = 0) : t.errSeen = s.errSeen := by
  cases h with
  | success => simp
  | error _ hne => exact absurd (by simpa using he) (errBits_ne_zero hne)
  | malformed => simp at he

theorem CommandEnds.errSeen_of_errSeen (h : CommandEnds s t) (hs : s.errSeen = true) : t.errSeen = true := by
  by_cases he : t.err = 0
  · exact (h.errSeen_of_err_eq_zero he).trans hs
  · exact h.errSeen_of_err_ne_zero he

end CommandEnds

/-! ## Reads -/

/-- A read that completes returns its port's value and changes HOST's record alone (10_state.md R27). -/
theorem runRead_next {p : Port} {s t : State} (h : runRead p s = .next t) :
    ∃ v, readPort p s = some v ∧ t = { s with returned := s.returned ++ [(p, v)] } := by
  cases hv : readPort p s with
  | none => rw [runRead_of_no_value hv] at h; cases h
  | some v => exact ⟨v, rfl, (Host.Outcome.next.inj ((runRead_of_value hv).symm.trans h)).symm⟩

/-- What a port shows does not depend on what HOST has read before. -/
theorem readPort_with_returned (p : Port) (s : State) (x : List (Port × Nat)) :
    readPort p { s with returned := x } = readPort p s := by
  cases p <;> rfl

/-! ## Sequences of deliveries -/

theorem andThen_eq_next {o : Host.Outcome State Fault Refusal} {f : State → Host.Outcome State Fault Refusal}
    {t : State} : andThen o f = .next t ↔ ∃ s, o = .next s ∧ f s = .next t := by
  cases o <;> simp [andThen]

theorem runEvents_cons_eq_next {e : Event} {es : List Event} {s t : State} :
    runEvents (e :: es) s = .next t ↔ ∃ s', runEvent e s = .next s' ∧ runEvents es s' = .next t :=
  andThen_eq_next

theorem runEvents_append_eq_next {es es' : List Event} {s t : State} :
    runEvents (es ++ es') s = .next t ↔ ∃ s', runEvents es s = .next s' ∧ runEvents es' s' = .next t := by
  induction es generalizing s with
  | nil => simp [runEvents]
  | cons e es ih =>
    simp only [List.cons_append, runEvents_cons_eq_next, ih]
    constructor
    · rintro ⟨s1, h1, s2, h2, h3⟩
      exact ⟨s2, ⟨s1, h1, h2⟩, h3⟩
    · rintro ⟨s2, ⟨s1, h1, h2⟩, h3⟩
      exact ⟨s1, h1, s2, h2, h3⟩

theorem runEvents_singleton (e : Event) (s : State) : runEvents [e] s = runEvent e s := by
  cases h : runEvent e s <;> simp [runEvents, andThen, h]

end Sys2Proof.Machine
end

section
/-! PROOFS. STATUS: its hardwired bit, ERR and ERR_SEEN (10_state.md R24 to R26). -/

namespace Sys2Proof.Machine

/-! ## The whole byte -/

theorem toNat_packStatus (e : BitVec 4) (a b c : Bool) :
    (packStatus e a b c).toNat = e.toNat + 16 * a.toNat + 32 * b.toNat + 64 * c.toNat := by
  revert e a b c; decide

theorem toNat_packStatus_lt (e : BitVec 4) (a b c : Bool) : (packStatus e a b c).toNat < 128 := by
  have he := e.isLt
  have ha := a.toNat_lt
  have hb := b.toNat_lt
  have hc := c.toNat_lt
  rw [toNat_packStatus]
  omega

/-- Every delivery keeps bit 7 of STATUS 0 (10_state.md R26). -/
theorem status_bit7_of_runEvent {e : Event} {s t : State} (hs : s.status.getLsbD 7 = false)
    (h : runEvent e s = .next t) : t.status.getLsbD 7 = false := by
  cases e with
  | cmd pkt => exact (commandEnds_of_runPacket h).status_bit7
  | reset => cases h; simp
  | read p => obtain ⟨v, -, rfl⟩ := runRead_next h; exact hs

/-- Settles O32: STATUS is only ever written as a packed byte, whose bit 7 is 0. -/
theorem statusBit7IsHardwiredZero : Obligations.StatusBit7IsHardwiredZero :=
  ⟨fun s => ⟨_, rfl, toNat_packStatus_lt .., toNat_packStatus ..⟩, by decide,
    fun _ _ _ hs h => status_bit7_of_runEvent hs h, fun _ _ _ h => (commandEnds_of_exec h).status_bit7⟩

/-! ## ERR -/

/-- The code a well-formed command ends with, from its operands and HDR_VALID alone (60_exceptions.md R142, R144). -/
def outcomeCode (i : Instr) (hdrValid : Bool) : BitVec 4 :=
  match i with
  | .encode _ _ _ _ | .encodeAck _ _ _ _ _ => 0
  | .decode data => if data.length < 20 then 1 else 0
  | .csum _ _ | .setcsum _ => if hdrValid then 0 else 3

theorem err_of_exec {i : Instr} {s t : State} (h : exec i s = .next t) : t.err = outcomeCode i s.hdrValid := by
  cases i with
  | encode => rw [exec_encode_next h]; simp [outcomeCode]
  | encodeAck => rw [exec_encodeAck_next h]; simp [outcomeCode]
  | decode data =>
    rcases exec_decode_next h with ⟨hl, rfl⟩ | ⟨hl, rfl⟩
    · simp [outcomeCode, hl]
    · simp [outcomeCode, hl]
  | csum =>
    rcases exec_csum_next h with ⟨hv, _, -, rfl⟩ | ⟨hv, rfl⟩
    · simp [outcomeCode, hv]
    · simp [outcomeCode, hv, errBits]
  | setcsum =>
    rcases exec_setcsum_next h with ⟨hv, rfl⟩ | ⟨hv, rfl⟩
    · simp [outcomeCode, hv]
    · simp [outcomeCode, hv, errBits]

/-- Settles O33: a packet that is no command raises ILLEGAL_COMMAND, any other ends with its instruction's code. -/
theorem errHoldsTheLastCommandsOutcome : Obligations.ErrHoldsTheLastCommandsOutcome := by
  refine ⟨fun pkt s t h => ?packet, fun p s t h => ?read, fun s t h => ?reset, by decide⟩
  case packet =>
    rcases runPacket_next_cases h with ⟨i, hd, hi⟩ | ⟨⟨e, hd⟩, rfl⟩
    · rw [hd, err_of_exec hi]
      cases i <;> rfl
    · rw [hd]
      exact State.err_raiseError s .illegalCommand
  case read => obtain ⟨v, -, rfl⟩ := runRead_next h; rfl
  case reset => cases h; simp

/-! ## ERR_SEEN -/

/-- No delivery but a reset clears ERR_SEEN (10_state.md R25). -/
theorem errSeen_of_runEvent {e : Event} {s t : State} (h : runEvent e s = .next t) (hs : s.errSeen = true)
    (he : e ≠ .reset) : t.errSeen = true := by
  cases e with
  | cmd pkt => exact (commandEnds_of_runPacket h).errSeen_of_errSeen hs
  | reset => exact absurd rfl he
  | read p => obtain ⟨v, -, rfl⟩ := runRead_next h; exact hs

/-- Nor does any sequence of deliveries without a reset. -/
theorem errSeen_of_runEvents {es : List Event} {s t : State} (h : runEvents es s = .next t) (hs : s.errSeen = true)
    (hr : Event.reset ∉ es) : t.errSeen = true := by
  induction es generalizing s with
  | nil => cases h; exact hs
  | cons e es ih =>
    obtain ⟨s', he, hes⟩ := runEvents_cons_eq_next.1 h
    have hne : e ≠ .reset := fun heq => hr (heq ▸ List.mem_cons_self)
    exact ih hes (errSeen_of_runEvent he hs hne) (fun hmem => hr (List.mem_cons_of_mem e hmem))

/-- Settles O34, by the three ways a command ends. -/
theorem errSeenIsSticky : Obligations.ErrSeenIsSticky := by
  refine ⟨fun pkt s t h => ?packet, fun e s t h hs he => errSeen_of_runEvent h hs he, fun s t h => ?reset⟩
  case packet =>
    have hend := commandEnds_of_runPacket h
    exact ⟨hend.errSeen_of_err_ne_zero, hend.errSeen_of_err_eq_zero⟩
  case reset => cases h; simp

/-- Settles O35: had the packet failed, ERR_SEEN would be 1 right after it, and so at the end. -/
theorem noErrorRecordedMeansEveryCommandSucceeded : Obligations.NoErrorRecordedMeansEveryCommandSucceeded := by
  intro before after pkt s t u ht hu hr hno
  by_contra hne
  obtain ⟨s', -, hpkt⟩ := runEvents_append_eq_next.1 ht
  rw [runEvents_singleton] at hpkt
  have hseen : t.errSeen = true := (commandEnds_of_runPacket hpkt).errSeen_of_err_ne_zero hne
  have hend : u.errSeen = true := errSeen_of_runEvents hu hseen hr
  simp [State.noErrorRecorded, hend] at hno

end Sys2Proof.Machine
end

section
/-! PROOFS. HDR_VALID, CSUM and CSUM_VALID, and the frame of the five commands (10_state.md R21, R22, R28). -/

namespace Sys2Proof.Machine

/-! ## HDR_VALID -/

theorem exec_csum_frame {srcip dstip : Word} {s t : State} (h : exec (.csum srcip dstip) s = .next t) :
    t.hdr = s.hdr ∧ t.hdrValid = s.hdrValid := by
  rcases exec_csum_next h with ⟨hv, _, -, rfl⟩ | ⟨-, rfl⟩
  · simp [hv]
  · simp

theorem hdrValid_of_exec_setcsum {value : Half} {s t : State} (h : exec (.setcsum value) s = .next t) :
    t.hdrValid = s.hdrValid := by
  rcases exec_setcsum_next h with ⟨hv, rfl⟩ | ⟨-, rfl⟩
  · simp [hv]
  · simp

/-- A command that changes HDR_VALID is one of the three that load a header (10_state.md R21). -/
theorem loads_of_exec_hdrValid_ne {i : Instr} {s t : State} (h : exec i s = .next t) (hne : t.hdrValid ≠ s.hdrValid) :
    (∃ a b c d, i = .encode a b c d) ∨ (∃ a b c d f, i = .encodeAck a b c d f) ∨ ∃ d, i = .decode d := by
  cases i with
  | encode => exact .inl ⟨_, _, _, _, rfl⟩
  | encodeAck => exact .inr (.inl ⟨_, _, _, _, _, rfl⟩)
  | decode => exact .inr (.inr ⟨_, rfl⟩)
  | csum => exact absurd (exec_csum_frame h).2 hne
  | setcsum => exact absurd (hdrValid_of_exec_setcsum h) hne

/-- While HDR_VALID is 0 a port that shows HDR cannot be read (40_codec.md R116). -/
theorem runRead_fault_of_hdrValid_eq_false {s : State} (hv : s.hdrValid = false) {p : Port} (h1 : p ≠ .csumOut)
    (h2 : p ≠ .statusOut) : runRead p s = .fault (.portHasNoValue p) :=
  runRead_of_no_value (by simp [readPort_header h1 h2, hv])

/-- Settles O39: each clause is the equation of the command or port it names; the converse is by the kind of delivery. -/
theorem hdrValidLifetime : Obligations.HdrValidLifetime := by
  refine ⟨fun sport dport seq acknum flags data s hl => ⟨?encode, ?encodeAck, ?decode⟩, fun data s hl => ?short,
    fun s => ?reset, fun e s t h hne => ?changes, fun s hv => ⟨fun a b => ?csum, fun v => ?setcsum, fun p h1 h2 => ?port⟩⟩
  case encode => exact ⟨_, exec_encode .., State.hdrValid_succeed ..⟩
  case encodeAck => exact ⟨_, exec_encodeAck .., State.hdrValid_succeed ..⟩
  case decode => exact ⟨_, exec_decode_long hl s, State.hdrValid_succeed ..⟩
  case short => exact ⟨_, exec_decode_short hl s, State.hdrValid_raiseMalformed s⟩
  case reset => exact ⟨_, rfl, State.hdrValid_assertReset s⟩
  case changes =>
    cases e with
    | cmd pkt =>
      rcases runPacket_next_cases h with ⟨i, hd, hi⟩ | ⟨-, rfl⟩
      · exact .inr ⟨pkt, i, rfl, hd, loads_of_exec_hdrValid_ne hi hne⟩
      · exact absurd (State.hdrValid_raiseError s _) hne
    | reset => exact .inl rfl
    | read p => obtain ⟨v, -, rfl⟩ := runRead_next h; exact absurd rfl hne
  case csum => exact ⟨_, exec_csum_invalid hv a b, State.err_raiseError s .noSegment⟩
  case setcsum => exact ⟨_, exec_setcsum_invalid hv v, State.err_raiseError s .noSegment⟩
  case port => exact runRead_fault_of_hdrValid_eq_false hv h1 h2

/-! ## CSUM and CSUM_VALID -/

/-- No command but CSUM writes CSUM or CSUM_VALID (10_state.md R22). -/
theorem csum_csumValid_of_exec {i : Instr} {s t : State} (hi : ∀ a b, i ≠ .csum a b) (h : exec i s = .next t) :
    t.csum = s.csum ∧ t.csumValid = s.csumValid := by
  cases i with
  | encode => rw [exec_encode_next h]; simp
  | encodeAck => rw [exec_encodeAck_next h]; simp
  | decode => rcases exec_decode_next h with ⟨-, rfl⟩ | ⟨-, rfl⟩ <;> simp
  | csum a b => exact absurd rfl (hi a b)
  | setcsum => rcases exec_setcsum_next h with ⟨-, rfl⟩ | ⟨-, rfl⟩ <;> simp

/-- A CSUM that ends with ERR 0 has written its checksum. -/
theorem csum_of_exec_csum_success {srcip dstip : Word} {s t : State} (h : exec (.csum srcip dstip) s = .next t)
    (he : t.err = 0) :
    ∃ header, s.hdr.readFrom 0 20 = some header ∧ t.csumValid = true ∧
      t.csum = ocsum (checksumBuffer srcip dstip header) := by
  rcases exec_csum_next h with ⟨-, header, hr, rfl⟩ | ⟨-, rfl⟩
  · exact ⟨header, hr, by simp⟩
  · simp [errBits] at he

/-- A CSUM that ends with an error has written neither. -/
theorem csum_of_exec_csum_failure {srcip dstip : Word} {s t : State} (h : exec (.csum srcip dstip) s = .next t)
    (he : t.err ≠ 0) : t.csum = s.csum ∧ t.csumValid = s.csumValid := by
  rcases exec_csum_next h with ⟨-, _, -, rfl⟩ | ⟨-, rfl⟩
  · simp at he
  · simp

/-- A command that changes CSUM_VALID is a successful CSUM, and makes it 1 (10_state.md R22). -/
theorem exec_csumValid_cases {i : Instr} {s t : State} (h : exec i s = .next t) :
    t.csumValid = s.csumValid ∨ (t.csumValid = true ∧ t.err = 0 ∧ ∃ a b, i = .csum a b) := by
  by_cases hi : ∃ a b, i = .csum a b
  · obtain ⟨a, b, rfl⟩ := hi
    by_cases he : t.err = 0
    · obtain ⟨_, -, hv, -⟩ := csum_of_exec_csum_success h he
      exact .inr ⟨hv, he, a, b, rfl⟩
    · exact .inl (csum_of_exec_csum_failure h he).2
  · exact .inl (csum_csumValid_of_exec (by simpa using hi) h).2

/-- The same of every delivery that is no reset. -/
theorem runEvent_csumValid_cases {e : Event} {s t : State} (he : e ≠ .reset) (h : runEvent e s = .next t) :
    t.csumValid = s.csumValid ∨
      (t.csumValid = true ∧ ∃ pkt a b, e = .cmd pkt ∧ decode pkt = .ok (.csum a b) ∧ t.err = 0) := by
  cases e with
  | cmd pkt =>
    rcases runPacket_next_cases h with ⟨i, hd, hi⟩ | ⟨-, rfl⟩
    · rcases exec_csumValid_cases hi with hv | ⟨hv, herr, a, b, rfl⟩
      · exact .inl hv
      · exact .inr ⟨hv, pkt, a, b, rfl, hd, herr⟩
    · exact .inl (State.csumValid_raiseError s _)
  | reset => exact absurd rfl he
  | read p => obtain ⟨v, -, rfl⟩ := runRead_next h; exact .inl rfl

/-- CSUM_OUT shows CSUM and CSUM_VALID alone. -/
theorem readPort_csumOut_congr {s t : State} (hc : t.csum = s.csum) (hv : t.csumValid = s.csumValid) :
    readPort .csumOut t = readPort .csumOut s := by
  rw [readPort_csumOut, readPort_csumOut, hc, hv]

/-- Settles O40: CSUM's two ends, and that no other delivery but a reset writes CSUM_VALID. -/
theorem csumRegisterLifetime : Obligations.CsumRegisterLifetime := by
  refine ⟨?success, fun _ _ _ _ h he => csum_of_exec_csum_failure h he, ?others, ?stays, ?turns, ?noValue, ?value,
    State.csumValid_assertReset, by decide⟩
  case success =>
    intro srcip dstip header s t hr h he
    obtain ⟨header', hr', hv, hc⟩ := csum_of_exec_csum_success h he
    obtain rfl := Option.some.inj (hr.symm.trans hr')
    exact ⟨hv, hc⟩
  case others =>
    intro i s t hi h
    obtain ⟨hc, hv⟩ := csum_csumValid_of_exec hi h
    exact ⟨hc, hv, readPort_csumOut_congr hc hv⟩
  case stays =>
    intro e s t h he hs
    rcases runEvent_csumValid_cases he h with hv | ⟨hv, -⟩
    · exact hv.trans hs
    · exact hv
  case turns =>
    intro e s t h hs ht
    have he : e ≠ .reset := by
      rintro rfl
      cases h
      simp at ht
    rcases runEvent_csumValid_cases he h with hv | ⟨-, hcsum⟩
    · simp [hv, hs] at ht
    · exact hcsum
  case noValue => intro s hs; simp [readPort_csumOut, hs]
  case value => intro s hs; simp [readPort_csumOut, hs]

/-! ## The frame of each command -/

/-- The three commands that load a header store within offsets 0..19 alone (10_state.md R28). -/
theorem Memory.read_packHeader_of_le (sport dport : Half) (seq acknum : Word) (flags : Byte) (m : Memory) {a : Nat}
    (ha : 20 ≤ a) : (m.packHeader sport dport seq acknum flags).read a = m.read a := by
  rw [Memory.read_packHeader, if_neg (Nat.not_lt.2 ha)]

theorem Memory.read_loadHeader_of_le {data : List Byte} (hl : 20 ≤ data.length) (m : Memory) {a : Nat} (ha : 20 ≤ a) :
    (m.loadHeader data).read a = m.read a := by
  rw [Memory.read_loadHeader data m hl, if_neg (Nat.not_lt.2 ha)]

/-- SETCSUM stores to bytes 16 and 17 alone (10_state.md R28). -/
theorem Memory.read_write16_of_ne (m : Memory) {o a : Nat} (v : Half) (h1 : a ≠ o) (h2 : a ≠ o + 1) :
    (m.write16 o v).read a = m.read a := by
  rw [Memory.read_write16, if_neg h1, if_neg h2]

/-- Settles O41: HOST's side by the three ways a command ends, the rest by the command and its outcome. -/
theorem commandsLeaveAllElseUnchanged : Obligations.CommandsLeaveAllElseUnchanged := by
  intro i s t h
  refine ⟨(commandEnds_of_exec h).hostSame, ?_⟩
  cases i with
  | encode sport dport seq flags =>
    obtain rfl := exec_encode_next h
    refine ⟨State.csum_succeed .., by simp, by simp, fun a ha => ?_⟩
    simp [Memory.read_packHeader_of_le, ha]
  | encodeAck sport dport seq acknum flags =>
    obtain rfl := exec_encodeAck_next h
    refine ⟨State.csum_succeed .., by simp, by simp, fun a ha => ?_⟩
    simp [Memory.read_packHeader_of_le, ha]
  | decode data =>
    rcases exec_decode_next h with ⟨hl, rfl⟩ | ⟨hl, rfl⟩
    · exact ⟨rfl, by simp, by simp, fun hs => absurd hs (Nat.not_lt.2 hl),
        fun a ha => Memory.read_loadHeader_of_le hl _ ha⟩
    · exact ⟨rfl, by simp, fun hs => absurd hl (Nat.not_lt.2 hs), fun _ => rfl, fun _ _ => rfl⟩
  | csum srcip dstip =>
    obtain ⟨hm, hv⟩ := exec_csum_frame h
    refine ⟨hm, hv, ?_⟩
    rcases exec_csum_next h with ⟨hs, _, -, rfl⟩ | ⟨hs, rfl⟩
    · simp [hs]
    · simp [hs]
  | setcsum value =>
    refine ⟨(csum_csumValid_of_exec (by simp) h).1, (csum_csumValid_of_exec (by simp) h).2,
      hdrValid_of_exec_setcsum h, ?_⟩
    rcases exec_setcsum_next h with ⟨hs, rfl⟩ | ⟨hs, rfl⟩
    · exact ⟨by simp, by simp [hs], fun a h1 h2 => Memory.read_write16_of_ne _ _ h1 h2⟩
    · exact ⟨by simp [hs], fun _ => rfl, fun _ _ _ => rfl⟩

end Sys2Proof.Machine
end

section
/-! PROOFS. HOST's reads: the widths of the ports, that a read changes nothing but HOST's record, and that reads can be left
out of a run (10_state.md R27, 70_reset_and_hazards.md R169). -/

namespace Sys2Proof.Machine

/-! ## The value of a port fits its width -/

theorem toNat_flagsOf_lt (b : Byte) : (flagsOf b).toNat < 2 ^ Config.flagBits := by
  rw [flagsOf, BitVec.toNat_and]
  exact Nat.and_lt_two_pow _ (by decide)

theorem headerPort_lt {m : Memory} {p : Port} {v : Nat} (h : headerPort m p = some v) : v < 2 ^ portWidth p := by
  cases p with
  | csumOut => cases h
  | statusOut => cases h
  | flags => obtain ⟨b, -, rfl⟩ := Option.map_eq_some_iff.1 h; exact toNat_flagsOf_lt b
  | flag f => obtain ⟨b, -, rfl⟩ := Option.map_eq_some_iff.1 h; exact Bool.toNat_lt _
  | _ => obtain ⟨b, -, rfl⟩ := Option.map_eq_some_iff.1 h; exact BitVec.isLt _

/-- A port that has a value has one of its width (10_state.md R27). -/
theorem readPort_lt {p : Port} {s : State} {v : Nat} (h : readPort p s = some v) : v < 2 ^ portWidth p := by
  by_cases h1 : p = .csumOut
  · subst h1
    rw [readPort_csumOut] at h
    obtain rfl := Option.some.inj (Option.ite_none_right_eq_some.1 h).2
    exact BitVec.isLt _
  by_cases h2 : p = .statusOut
  · subst h2
    cases h
    exact BitVec.isLt _
  · rw [readPort_header h1 h2] at h
    exact headerPort_lt (Option.ite_none_right_eq_some.1 h).2

/-- Settles O18: a read changes HOST's record alone, on which no port depends. -/
theorem readsChangeNothing : Obligations.ReadsChangeNothing := by
  intro s p v h
  refine ⟨_, runRead_of_value h, ?width, rfl, rfl, rfl, fun q => readPort_with_returned q s _⟩
  case width =>
    have hlt := readPort_lt h
    cases p <;> exact hlt

/-! ## The record of reads -/

/-- Settles O56, by the kind of the delivery. -/
theorem readsAreRecorded : Obligations.ReadsAreRecorded := by
  refine ⟨fun s p v h => ⟨_, runRead_of_value h, rfl, rfl⟩, fun e s t hne h => ?_⟩
  cases e with
  | cmd pkt => exact (commandEnds_of_runPacket h).hostSame.2
  | reset => cases h; rfl
  | read p => exact absurd rfl (hne p)

/-! ## A run without its reads -/

/-- The delivery is a command or a reset. -/
def notRead : Event → Bool
  | .read _ => false
  | _ => true

/-- The port a delivery reads. -/
def portRead : Event → Option Port
  | .read p => some p
  | _ => none

/-- A packet does the same whatever HOST has read before, and leaves that record as it is. -/
theorem runPacket_with_returned (pkt : List Byte) (s : State) (x : List (Port × Nat)) :
    runPacket pkt { s with returned := x } = mapNext (fun t => { t with returned := x }) (runPacket pkt s) := by
  cases hd : decode pkt with
  | ok i => rw [runPacket_of_decode_ok hd, runPacket_of_decode_ok hd, exec_with_returned]
  | error e => rw [runPacket_of_decode_error hd, runPacket_of_decode_error hd]; rfl

/-- A run without its reads, from any record of reads `x`, ends as the run does but for that record, which stays `x`. -/
theorem runEvents_filter_notRead {es : List Event} {s t : State} (h : runEvents es s = .next t)
    (x : List (Port × Nat)) :
    runEvents (es.filter notRead) { s with returned := x } = .next { t with returned := x } := by
  induction es generalizing s with
  | nil => cases h; rfl
  | cons e es ih =>
    obtain ⟨s', he, hes⟩ := runEvents_cons_eq_next.1 h
    cases e with
    | cmd pkt =>
      have hpkt : runPacket pkt s = .next s' := he
      exact runEvents_cons_eq_next.2 ⟨_, by rw [runEvent, runPacket_with_returned, hpkt, mapNext], ih hes⟩
    | reset =>
      cases he
      exact runEvents_cons_eq_next.2 ⟨_, rfl, ih hes⟩
    | read p =>
      obtain ⟨v, -, rfl⟩ := runRead_next he
      exact ih (s := { s with returned := s.returned ++ [(p, v)] }) hes

/-- A run returns one value for each of its reads, in order (70_reset_and_hazards.md R169). -/
theorem map_fst_returned_of_runEvents {es : List Event} {s t : State} (h : runEvents es s = .next t) :
    t.returned.map Prod.fst = s.returned.map Prod.fst ++ es.filterMap portRead := by
  induction es generalizing s with
  | nil => cases h; simp
  | cons e es ih =>
    obtain ⟨s', he, hes⟩ := runEvents_cons_eq_next.1 h
    rw [ih hes]
    cases e with
    | cmd pkt =>
      have hsame : s'.returned = s.returned := (commandEnds_of_runPacket he).hostSame.2
      simp [portRead, hsame, List.filterMap_cons]
    | reset => cases he; simp [portRead, List.filterMap_cons]
    | read p =>
      obtain ⟨v, -, rfl⟩ := runRead_next he
      simp [portRead]

/-- The observation of a state shows of HOST's record of reads nothing but the record itself. -/
theorem observe_with_returned (t : State) (x : List (Port × Nat)) :
    State.observe { t with returned := x } = { t.observe with returned := x } := by
  simp only [State.observe, readPort_with_returned]
  rfl

/-- Settles O50: run without its reads from its own record, a run ends in the same state but for that record. -/
theorem readsCanBeLeftOut : Obligations.ReadsCanBeLeftOut := by
  intro es s t h
  refine ⟨⟨{ t with returned := s.returned }, runEvents_filter_notRead h s.returned, ?observation, rfl⟩,
    map_fst_returned_of_runEvents h⟩
  case observation => rw [observe_with_returned]; rfl

end Sys2Proof.Machine
end

section
/-! PROOFS. HDR through ports of different widths (20_memory.md section 2): what the 16- and 32-bit reads of HDR say of its
bytes, and so of the RAW ports, most significant byte first. -/

namespace Sys2Proof.Machine

/-! ## The bytes a wider read is made of -/

/-- `MemRead(o, 2)` by its two bytes (00_scope.md R12). -/
theorem Memory.read16_eq_some {m : Memory} {o : Nat} {v : Half} :
    m.read16 o = some v ↔ ∃ a b, m.read o = some a ∧ m.read (o + 1) = some b ∧ be16 a b = v := by
  unfold Memory.read16
  cases m.read o <;> cases m.read (o + 1) <;> simp

/-- `MemRead(o, 4)` by its two halves (00_scope.md R12). -/
theorem Memory.read32_eq_some {m : Memory} {o : Nat} {v : Word} :
    m.read32 o = some v ↔ ∃ h l, m.read16 o = some h ∧ m.read16 (o + 2) = some l ∧ h ++ l = v := by
  unfold Memory.read32
  cases m.read16 o <;> cases m.read16 (o + 2) <;> simp

/-! ## The packed bytes as numbers -/

/-- DOFF is the high nibble of byte 12 (40_codec.md R104). -/
theorem toNat_doffOf (b : Byte) : (doffOf b).toNat = b.toNat / 16 := by
  have hb := b.isLt
  rw [doffOf, BitVec.extractLsb'_toNat, Nat.shiftRight_eq_div_pow]
  omega

/-- FLAGS is the low six bits of byte 13 (40_codec.md R105). -/
theorem toNat_flagsOf (b : Byte) : (flagsOf b).toNat = b.toNat % 64 := by
  rw [flagsOf, BitVec.toNat_and]
  exact Nat.and_two_pow_sub_one_eq_mod b.toNat 6

/-! ## The ports -/

/-- A port that shows HDR has a value exactly when there is a segment and the buffer has it (40_codec.md R116). -/
theorem readPort_header_eq_some {p : Port} (h1 : p ≠ .csumOut) (h2 : p ≠ .statusOut) {s : State} {v : Nat} :
    readPort p s = some v ↔ s.hdrValid = true ∧ headerPort s.hdr p = some v := by
  rw [readPort_header h1 h2]
  exact Option.ite_none_right_eq_some

/-- The value of a port that shows HDR is made from the bytes the port names, and those have a value. -/
theorem readPort_header_value {α : Type} {p : Port} {s : State} {v : Nat} {f : α → Nat} {x : Option α}
    (h1 : p ≠ .csumOut) (h2 : p ≠ .statusOut) (hx : headerPort s.hdr p = x.map f) (hp : readPort p s = some v) :
    s.hdrValid = true ∧ ∃ a, x = some a ∧ f a = v := by
  obtain ⟨hv, hread⟩ := (readPort_header_eq_some h1 h2).1 hp
  exact ⟨hv, Option.map_eq_some_iff.1 (hx.symm.trans hread)⟩

/-- RAW(i) shows HDR[i] (40_codec.md R115). -/
theorem readPort_raw_of_read {s : State} {i : Fin 20} {b : Byte} (hv : s.hdrValid = true)
    (hb : s.hdr.read i = some b) : readPort (.raw i) s = some b.toNat :=
  (readPort_header_eq_some (by simp) (by simp)).2 ⟨hv, Option.map_eq_some_iff.2 ⟨b, hb, rfl⟩⟩

/-- The RAW ports at a 16-bit value are its bytes, most significant first (20_memory.md R41). -/
theorem readPort_raw_of_read16 {s : State} {o : Fin 19} {v : Half} (hv : s.hdrValid = true)
    (h : s.hdr.read16 o = some v) :
    readPort (.raw o.castSucc) s = some (v.toNat / 256) ∧ readPort (.raw o.succ) s = some (v.toNat % 256) := by
  obtain ⟨a, b, ha, hb, rfl⟩ := Memory.read16_eq_some.1 h
  have hlt := b.isLt
  have hdiv : (be16 a b).toNat / 256 = a.toNat := by rw [toNat_be16]; omega
  have hmod : (be16 a b).toNat % 256 = b.toNat := by rw [toNat_be16]; omega
  rw [hdiv, hmod]
  exact ⟨readPort_raw_of_read hv ha, readPort_raw_of_read hv hb⟩

/-- The RAW ports at a 32-bit value, of which `o` and `o'` are the offsets of the halves, are its bytes, most significant
first (20_memory.md R41). -/
theorem readPort_raw_of_read32 {s : State} {o o' : Fin 19} {v : Word} (ho : o'.val = o.val + 2) (hv : s.hdrValid = true)
    (h : s.hdr.read32 o = some v) :
    readPort (.raw o.castSucc) s = some (v.toNat / 16777216) ∧
    readPort (.raw o.succ) s = some (v.toNat / 65536 % 256) ∧
    readPort (.raw o'.castSucc) s = some (v.toNat / 256 % 256) ∧
    readPort (.raw o'.succ) s = some (v.toNat % 256) := by
  obtain ⟨hi, lo, hhi, hlo, rfl⟩ := Memory.read32_eq_some.1 h
  obtain ⟨h0, h1⟩ := readPort_raw_of_read16 hv hhi
  obtain ⟨h2, h3⟩ := readPort_raw_of_read16 (o := o') hv (ho ▸ hlo)
  have hlt := lo.isLt
  rw [h0, h1, h2, h3, toNat_append_halves]
  simp only [Option.some.injEq]
  omega

/-- The ports of the 16-bit fields and the fields' offsets (30_encoding.md R60). -/
def halfPorts : List (Port × Fin 19) := [(.srcPort, 0), (.dstPort, 2), (.window, 14), (.checksum, 16), (.urgptr, 18)]

/-- The port of a 16-bit field shows the two bytes at the field's offset (40_codec.md R100, R101, R112 to R114). -/
theorem readPort_halfPort {p : Port} {o : Fin 19} (h : (p, o) ∈ halfPorts) {s : State} {v : Nat}
    (hp : readPort p s = some v) : s.hdrValid = true ∧ ∃ w, s.hdr.read16 o = some w ∧ w.toNat = v := by
  have hheader : p ≠ .csumOut ∧ p ≠ .statusOut ∧ headerPort s.hdr p = (s.hdr.read16 o).map BitVec.toNat := by
    simp only [halfPorts, List.mem_cons, Prod.mk.injEq, List.not_mem_nil, or_false] at h
    rcases h with ⟨rfl, rfl⟩ | ⟨rfl, rfl⟩ | ⟨rfl, rfl⟩ | ⟨rfl, rfl⟩ | ⟨rfl, rfl⟩ <;>
      exact ⟨by simp, by simp, rfl⟩
  obtain ⟨h1, h2, hx⟩ := hheader
  exact readPort_header_value h1 h2 hx hp

/-- Settles O19: each port names the bytes of HDR it is made of, and the RAW ports show those bytes. -/
theorem mixedWidthViewsAgree : Obligations.MixedWidthViewsAgree := by
  refine ⟨?half, ?seq, ?acknum, ?doff, ?flags⟩
  case half =>
    intro s p o v hmem hp
    obtain ⟨hv, w, hw, rfl⟩ := readPort_halfPort hmem hp
    exact readPort_raw_of_read16 hv hw
  case seq =>
    intro s v hp
    obtain ⟨hv, w, hw, rfl⟩ := readPort_header_value (by simp) (by simp) rfl hp
    exact readPort_raw_of_read32 (o := 4) (o' := 6) rfl hv hw
  case acknum =>
    intro s v hp
    obtain ⟨hv, w, hw, rfl⟩ := readPort_header_value (by simp) (by simp) rfl hp
    exact readPort_raw_of_read32 (o := 8) (o' := 10) rfl hv hw
  case doff =>
    intro s v hp
    obtain ⟨hv, b, hb, rfl⟩ := readPort_header_value (by simp) (by simp) rfl hp
    exact ⟨b.toNat, readPort_raw_of_read hv hb, (toNat_doffOf b).symm⟩
  case flags =>
    intro s v hp
    obtain ⟨hv, b, hb, rfl⟩ := readPort_header_value (by simp) (by simp) rfl hp
    exact ⟨b.toNat, readPort_raw_of_read hv hb, (toNat_flagsOf b).symm⟩

end Sys2Proof.Machine
end

section
/-! PROOFS. The order of deliveries (20_memory.md R49): the machine's run takes what HOST has delivered one after another,
and a sequence of deliveries splits anywhere. -/

namespace Sys2Proof.Machine

/-- What follows a stop or a next state can be grouped either way. -/
theorem andThen_assoc (o : Host.Outcome State Fault Refusal) (f g : State → Host.Outcome State Fault Refusal) :
    andThen (andThen o f) g = andThen o (fun s => andThen (f s) g) := by
  cases o <;> rfl

/-- A sequence of deliveries splits anywhere, stops included. -/
theorem runEvents_append (es es' : List Event) (s : State) :
    runEvents (es ++ es') s = andThen (runEvents es s) (runEvents es') := by
  induction es generalizing s with
  | nil => rfl
  | cons e es ih => exact (congrArg (andThen (runEvent e s)) (funext ih)).trans (andThen_assoc _ _ _).symm

/-- The machine's run is one step and then the rest of the run. -/
theorem core_run_succ (k : Nat) (s : State) :
    Host.Core.run core (k + 1) s = andThen (step s) (Host.Core.run core k) := by
  have hstep : core.step s = step s := rfl
  simp only [Host.Core.run, hstep]
  cases step s <;> rfl

/-- One delivery leaves those HOST has made after it (00_scope.md R7). -/
theorem inbox_of_runEvent {e : Event} {s t : State} (h : runEvent e s = .next t) : t.inbox = s.inbox := by
  have hkeeps := runEvent_with_inbox e s s.inbox
  rw [h] at hkeeps
  have ht : t = { t with inbox := s.inbox } := Host.Outcome.next.inj hkeeps
  rw [ht]

/-- As many steps as there are deliveries take those deliveries in order, stops included. -/
theorem core_run_inbox (es : List Event) (s : State) :
    Host.Core.run core es.length ({ s with inbox := es } : State) = runEvents es { s with inbox := [] } := by
  induction es generalizing s with
  | nil => rfl
  | cons e es ih =>
    have hstep : step { s with inbox := e :: es } =
        mapNext (fun t => { t with inbox := es }) (runEvent e { s with inbox := [] }) :=
      runEvent_with_inbox e { s with inbox := [] } es
    rw [List.length_cons, core_run_succ, hstep, runEvents]
    cases h : runEvent e { s with inbox := [] } with
    | next t =>
      have hnil : t.inbox = [] := inbox_of_runEvent h
      have ht : { t with inbox := [] } = t := by rw [← hnil]
      exact (ih t).trans (by rw [ht]; rfl)
    | fault r => rfl
    | refused r => rfl

/-- Settles O49, by induction on the deliveries: a delivery does not look at those still to come. -/
theorem runIsTheDeliveriesInOrder : Obligations.RunIsTheDeliveriesInOrder :=
  ⟨core_run_inbox, runEvents_append⟩

end Sys2Proof.Machine
end

section
/-! PROOFS. Systems of units (20_memory.md R54): what a step of one unit does to the system, said once, and that units share
nothing. -/

namespace Sys2Proof.Machine

/-- A number with no unit behind it steps nothing. -/
theorem System.stepUnit_of_no_unit {y : System} {k : Nat} (h : y.units[k]? = none) : y.stepUnit k = .next y := by
  simp only [System.stepUnit, h]

/-- A unit's step takes effect in that unit's place alone. -/
theorem System.stepUnit_of_unit {y : System} {k : Nat} {s t : State} (h : y.units[k]? = some s)
    (hs : step s = .next t) : y.stepUnit k = .next { units := y.units.set k t } := by
  simp only [System.stepUnit, h, hs]

/-- Every next system of a unit's step. -/
theorem System.stepUnit_next_cases {y z : System} {k : Nat} (h : y.stepUnit k = .next z) :
    (y.units[k]? = none ∧ z = y) ∨
    ∃ s t, y.units[k]? = some s ∧ step s = .next t ∧ z = { units := y.units.set k t } := by
  unfold System.stepUnit at h
  split at h
  next hk => exact .inl ⟨hk, (Host.Outcome.next.inj h).symm⟩
  next s hk =>
    split at h
    next t hs => exact .inr ⟨s, t, hk, hs, (Host.Outcome.next.inj h).symm⟩
    next => cases h
    next => cases h

theorem System.units_of_stepUnit_ne {y z : System} {k j : Nat} (h : y.stepUnit k = .next z) (hj : j ≠ k) :
    z.units[j]? = y.units[j]? := by
  rcases System.stepUnit_next_cases h with ⟨-, rfl⟩ | ⟨s, t, -, -, rfl⟩
  · rfl
  · exact List.getElem?_set_ne hj.symm

theorem System.units_deliver_ne (y : System) {k j : Nat} (e : Event) (hj : j ≠ k) :
    (y.deliver k e).units[j]? = y.units[j]? :=
  List.getElem?_modify_ne _ _ hj.symm

/-- Two systems with the same unit `k` step it to the same unit, whatever their other units are. -/
theorem System.stepUnit_congr {y y' z : System} {k : Nat} (hk : y.units[k]? = y'.units[k]?)
    (h : y.stepUnit k = .next z) : ∃ z', y'.stepUnit k = .next z' ∧ z'.units[k]? = z.units[k]? := by
  rcases System.stepUnit_next_cases h with ⟨hnone, rfl⟩ | ⟨s, t, hsome, hs, rfl⟩
  · exact ⟨y', System.stepUnit_of_no_unit (hk ▸ hnone), hk.symm⟩
  · refine ⟨_, System.stepUnit_of_unit (hk ▸ hsome) hs, ?_⟩
    rw [List.getElem?_set_self', List.getElem?_set_self', hk]

/-- Settles O51: a step of unit `k` reads and replaces the entry `k` of the list of units alone. -/
theorem unitsShareNothing : Obligations.UnitsShareNothing :=
  ⟨fun _ _ _ _ h hj => System.units_of_stepUnit_ne h hj,
    fun y _ _ _ e hj hz => hz ▸ System.units_deliver_ne y e hj,
    fun _ _ _ _ hk h => System.stepUnit_congr hk h⟩

end Sys2Proof.Machine
end

section
/-! PROOFS. Command packets (30_encoding.md sections 3 to 5): the decoder and the encoder undo each other, and a packet is
a command exactly when the check of R78 holds. -/

namespace Sys2Proof.Machine

/-! ## The encoder, then the decoder -/

/-- No bit of an encoding is dropped (30_encoding.md R76, R77): each field's bytes joined again are the field. -/
theorem decode_encode_of_wf {i : Instr} (h : i.wf = true) : decode (encode i) = .ok i := by
  cases i with
  | encode sport dport seq flags =>
    change decodeEncode (put16 sport ++ put16 dport ++ put32 seq ++ [flags]) = _
    simp [put16, put32, decodeEncode]
  | encodeAck sport dport seq acknum flags =>
    change decodeEncodeAck (put16 sport ++ put16 dport ++ put32 seq ++ put32 acknum ++ [flags]) = _
    simp [put16, put32, decodeEncodeAck]
  | decode data => exact if_pos h
  | csum srcip dstip =>
    change decodeCsum (put32 srcip ++ put32 dstip) = _
    simp [put16, put32, decodeCsum]
  | setcsum value =>
    change decodeSetcsum (put16 value) = _
    simp [put16, decodeSetcsum]

/-- Settles O3. -/
theorem decodeOfEncodeIsTheInstruction : Obligations.DecodeOfEncodeIsTheInstruction :=
  fun _ => decode_encode_of_wf

/-! ## The decoder, then the encoder -/

theorem decodeDecode_eq_ok {data : List Byte} {i : Instr} :
    decodeDecode data = .ok i ↔ dataLenOk data.length = true ∧ .decode data = i := by
  unfold decodeDecode
  split_ifs with h <;> simp [h]

/-- An instruction whose packet is a command is well-formed: only the length of a DECODE's data can fail (R78). -/
theorem wf_of_decode_encode {i j : Instr} (h : decode (encode j) = .ok i) : j.wf = true := by
  cases j with
  | decode data => exact (decodeDecode_eq_ok.1 h).1
  | encode | encodeAck | csum | setcsum => rfl

/-- What a packet decodes to is well-formed and is carried by that packet (30_encoding.md R76). -/
theorem wf_and_encode_of_decode {pkt : List Byte} {i : Instr} (h : decode pkt = .ok i) :
    i.wf = true ∧ encode i = pkt := by
  rcases decode_ok_cases h with ⟨_, _, _, _, _, _, _, _, _, rfl, rfl⟩ |
    ⟨_, _, _, _, _, _, _, _, _, _, _, _, _, rfl, rfl⟩ | ⟨_, rfl, hl, rfl⟩ | ⟨_, _, _, _, _, _, _, _, rfl, rfl⟩ |
    ⟨_, _, rfl, rfl⟩
  · simp [Instr.wf, encode]
  · simp [Instr.wf, encode]
  · exact ⟨hl, rfl⟩
  · simp [Instr.wf, encode]
  · simp [Instr.wf, encode]

/-- Settles O4: an instruction with that packet is well-formed, so decoding the packet gives it, and decoding has one
answer. -/
theorem encodeOfDecodeIsThePacket : Obligations.EncodeOfDecodeIsThePacket := by
  intro pkt i h
  obtain ⟨hwf, henc⟩ := wf_and_encode_of_decode h
  refine ⟨hwf, henc, fun j hj => ?_⟩
  subst hj
  have hdec : decode (encode j) = .ok j := decode_encode_of_wf (wf_of_decode_encode h)
  exact Except.ok.inj (hdec.symm.trans h)

/-! ## The operands as numbers -/

theorem be16_eq_ofNat (a b : Byte) : be16 a b = BitVec.ofNat 16 (a.toNat * 256 + b.toNat) := by
  rw [← toNat_be16, BitVec.ofNat_toNat, BitVec.setWidth_eq]

theorem be32_eq_ofNat (a b c d : Byte) :
    be32 a b c d = BitVec.ofNat 32 (a.toNat * 16777216 + b.toNat * 65536 + c.toNat * 256 + d.toNat) := by
  have h := toNat_be32 a b c d
  norm_num only at h
  rw [← h, BitVec.ofNat_toNat, BitVec.setWidth_eq]

/-- A DECODE packet of at most MAX_DECODE_LEN data bytes carries its data (30_encoding.md R76). -/
theorem decode_decode_op_of_le {data : List Byte} (h : data.length ≤ Config.maxDecodeLen) :
    decode (opDecode :: data) = .ok (.decode data) :=
  decodeDecode_eq_ok.2 ⟨(dataLenOk_iff _).2 h, rfl⟩

/-- Settles O2: the decoder joins each operand's bytes, and joined bytes are their big-endian value. -/
theorem opcodeSelectsCommandAndOperands : Obligations.OpcodeSelectsCommandAndOperands := by
  unfold Obligations.OpcodeSelectsCommandAndOperands
  simp only [← be16_eq_ofNat, ← be32_eq_ofNat]
  refine ⟨?encode, ?encodeAck, ?decode, ?csum, ?setcsum⟩
  case encode => intros; rfl
  case encodeAck => intros; rfl
  case decode => exact fun _ hl => decode_decode_op_of_le hl
  case csum => intros; rfl
  case setcsum => intros; rfl

/-! ## Which packets are commands -/

/-- `wf(pkt)`, as 30_encoding.md R78 writes it. -/
def PacketWf (pkt : List Byte) : Prop :=
  1 ≤ pkt.length ∧
  ((pkt[0]? = some 0x01 ∧ pkt.length = 10) ∨ (pkt[0]? = some 0x02 ∧ pkt.length = 14) ∨
    (pkt[0]? = some 0x03 ∧ 1 ≤ pkt.length ∧ pkt.length ≤ 1 + Config.maxDecodeLen) ∨
    (pkt[0]? = some 0x04 ∧ pkt.length = 9) ∨ (pkt[0]? = some 0x05 ∧ pkt.length = 3))

theorem decodeEncode_of_length : ∀ args : List Byte, args.length = 9 → ∃ i, decodeEncode args = .ok i
  | [_, _, _, _, _, _, _, _, _], _ => ⟨_, rfl⟩

theorem decodeEncodeAck_of_length : ∀ args : List Byte, args.length = 13 → ∃ i, decodeEncodeAck args = .ok i
  | [_, _, _, _, _, _, _, _, _, _, _, _, _], _ => ⟨_, rfl⟩

theorem decodeCsum_of_length : ∀ args : List Byte, args.length = 8 → ∃ i, decodeCsum args = .ok i
  | [_, _, _, _, _, _, _, _], _ => ⟨_, rfl⟩

theorem decodeSetcsum_of_length : ∀ args : List Byte, args.length = 2 → ∃ i, decodeSetcsum args = .ok i
  | [_, _], _ => ⟨_, rfl⟩

theorem eq_cons_of_getElem?_zero {pkt : List Byte} {op : Byte} (h : pkt[0]? = some op) : ∃ args, pkt = op :: args := by
  cases pkt with
  | nil => cases h
  | cons _ args => exact ⟨args, congrArg (· :: args) (Option.some.inj h)⟩

theorem packetWf_of_decode {pkt : List Byte} {i : Instr} (h : decode pkt = .ok i) : PacketWf pkt := by
  rcases decode_ok_cases h with ⟨_, _, _, _, _, _, _, _, _, rfl, -⟩ |
    ⟨_, _, _, _, _, _, _, _, _, _, _, _, _, rfl, -⟩ | ⟨data, rfl, hl, -⟩ | ⟨_, _, _, _, _, _, _, _, rfl, -⟩ |
    ⟨_, _, rfl, -⟩
  · exact ⟨by simp, .inl ⟨rfl, rfl⟩⟩
  · exact ⟨by simp, .inr (.inl ⟨rfl, rfl⟩)⟩
  · have hmax := (dataLenOk_iff _).1 hl
    have hlen : (opDecode :: data).length = 1 + data.length := Nat.add_comm ..
    exact ⟨by omega, .inr (.inr (.inl ⟨rfl, by omega, by omega⟩))⟩
  · exact ⟨by simp, .inr (.inr (.inr (.inl ⟨rfl, rfl⟩)))⟩
  · exact ⟨by simp, .inr (.inr (.inr (.inr ⟨rfl, rfl⟩)))⟩

theorem exists_decode_of_packetWf {pkt : List Byte} (h : PacketWf pkt) : ∃ i, decode pkt = .ok i := by
  rcases h with ⟨-, ⟨hop, hl⟩ | ⟨hop, hl⟩ | ⟨hop, -, hl⟩ | ⟨hop, hl⟩ | ⟨hop, hl⟩⟩ <;>
    obtain ⟨args, rfl⟩ := eq_cons_of_getElem?_zero hop <;> rw [List.length_cons] at hl
  · exact decodeEncode_of_length args (by omega)
  · exact decodeEncodeAck_of_length args (by omega)
  · exact ⟨_, decode_decode_op_of_le (by omega)⟩
  · exact decodeCsum_of_length args (by omega)
  · exact decodeSetcsum_of_length args (by omega)

/-- A packet of opcode 0x03 and fewer than 20 data bytes is a command, and ends in MALFORMED_SEGMENT
(60_exceptions.md R144). -/
theorem runPacket_decode_short {data : List Byte} (h : data.length < 20) (s : State) :
    PacketWf (opDecode :: data) ∧ runPacket (opDecode :: data) s = .next s.raiseMalformed := by
  have hdec := decode_decode_op_of_le (h.le.trans twenty_le_maxDecodeLen)
  exact ⟨packetWf_of_decode hdec, (runPacket_of_decode_ok hdec s).trans (exec_decode_short h s)⟩

/-- Settles O5: a packet is either decoded and run, or refused by name, and it is decoded exactly when R78's check holds. -/
theorem packetIsACommandExactlyWhenWellFormed : Obligations.PacketIsACommandExactlyWhenWellFormed := by
  intro pkt s
  change (PacketWf pkt → _) ∧ (¬PacketWf pkt → _) ∧ (_ → _ → PacketWf pkt ∧ _)
  refine ⟨?command, ?refused, ?short⟩
  case command =>
    intro hwf
    obtain ⟨i, hi⟩ := exists_decode_of_packetWf hwf
    exact ⟨i, hi, runPacket_of_decode_ok hi s⟩
  case refused =>
    intro hwf
    rcases runPacket_cases pkt s with ⟨i, hi, -⟩ | ⟨-, hr⟩
    · exact absurd (packetWf_of_decode hi) hwf
    · exact ⟨_, hr, State.failsAs_raiseError s .illegalCommand⟩
  case short =>
    intro hop hl
    obtain ⟨data, rfl⟩ := eq_cons_of_getElem?_zero hop
    obtain ⟨hwf, hr⟩ := runPacket_decode_short (Nat.lt_of_succ_lt_succ hl) s
    exact ⟨hwf, _, hr, State.err_raiseMalformed s⟩

end Sys2Proof.Machine
end

section
/-! PROOFS. The sample packets and lines of 95_test_vectors.md: the decoder and the assembler run on each. -/

namespace Sys2Proof.Machine

/-- Settles O1: each packet's command, evaluated. -/
theorem sampleWordsDecode : Obligations.SampleWordsDecode :=
  ⟨by decide, by decide, by decide, by decide, by decide⟩

/-- Settles O55: each line's item, evaluated. -/
theorem sampleLinesAssemble : Obligations.SampleLinesAssemble :=
  ⟨by decide, by decide, by decide, by decide, by decide⟩

end Sys2Proof.Machine
end

section
/-! PROOFS. Header bytes 12 and 13 (30_encoding.md R61 to R63): what is written there and which ports show which of their
bits. -/

namespace Sys2Proof.Machine

/-! ## The flag ports -/

theorem flagBit_lt (f : Flag) : flagBit f < 6 := by
  cases f <;> decide

/-- A flag is its bit of byte 13 as a number (30_encoding.md R63). -/
theorem toNat_flagOf (f : Flag) (b : Byte) : (flagOf f b).toNat = b.toNat / 2 ^ flagBit f % 2 :=
  Nat.toNat_testBit ..

/-- Each flag port reads its bit of byte 13 (40_codec.md R106 to R111). -/
theorem readPort_flag_of_read {s : State} {b : Byte} (hv : s.hdrValid = true) (hb : s.hdr.read 13 = some b) (f : Flag) :
    readPort (.flag f) s = some (b.toNat / 2 ^ flagBit f % 2) :=
  (readPort_header_eq_some (by simp) (by simp)).2 ⟨hv, Option.map_eq_some_iff.2 ⟨b, hb, toNat_flagOf f b⟩⟩

/-- Settles O15: the position of each flag in the one rule for all six ports. -/
theorem flagPortsReadTheirBit : Obligations.FlagPortsReadTheirBit := by
  intro s v hv hb
  have hport := readPort_flag_of_read hv hb
  refine ⟨hport .urg, hport .ack, hport .psh, hport .rst, hport .syn, ?fin⟩
  case fin => simpa [flagBit] using hport .fin

/-! ## The bytes a port shows -/

/-- The offsets of HDR a port shows (40_codec.md R100 to R115). -/
def portOffsets : Port → List Nat
  | .srcPort => [0, 1]
  | .dstPort => [2, 3]
  | .seq => [4, 5, 6, 7]
  | .acknum => [8, 9, 10, 11]
  | .doff => [12]
  | .flags => [13]
  | .flag _ => [13]
  | .window => [14, 15]
  | .checksum => [16, 17]
  | .urgptr => [18, 19]
  | .raw i => [i.val]
  | .csumOut => []
  | .statusOut => []

/-- A port depends on the bytes it shows and on no other. -/
theorem headerPort_congr {m n : Memory} {p : Port} (h : ∀ a ∈ portOffsets p, m.read a = n.read a) :
    headerPort m p = headerPort n p := by
  cases p <;> simp_all [portOffsets, headerPort, Memory.read16, Memory.read32]

/-- Two states that differ in HDR alone show the same on a port that reads the same from both buffers. -/
theorem readPort_with_hdr_congr {m n : Memory} {p : Port} (s : State) (h : headerPort m p = headerPort n p) :
    readPort p { s with hdr := m } = readPort p { s with hdr := n } := by
  by_cases h1 : p = .csumOut
  · subst h1; rfl
  · by_cases h2 : p = .statusOut
    · subst h2; rfl
    · rw [readPort_header h1 h2, readPort_header h1 h2, h]
      rfl

/-- What is written to a byte is not seen on a port that does not show it. -/
theorem headerPort_write_congr (m : Memory) {o : Nat} (v w : Byte) {p : Port} (h : o ∉ portOffsets p) :
    headerPort (m.write o v) p = headerPort (m.write o w) p :=
  headerPort_congr fun a ha => by
    have hne : o ≠ a := fun hoa => h (hoa ▸ ha)
    simp [hne]

/-- Byte 12 is shown by DOFF and RAW(12) alone (30_encoding.md R61). -/
theorem port_of_mem_portOffsets_12 {p : Port} (h : 12 ∈ portOffsets p) : p = .doff ∨ p = .raw 12 := by
  cases p with
  | doff => exact .inl rfl
  | raw i => exact .inr (congrArg Port.raw (Fin.ext (List.mem_singleton.1 h).symm))
  | _ => simp [portOffsets] at h

/-- Byte 13 is shown by FLAGS, the flag ports and RAW(13) alone (30_encoding.md R62, R63). -/
theorem port_of_mem_portOffsets_13 {p : Port} (h : 13 ∈ portOffsets p) :
    p = .flags ∨ (∃ f, p = .flag f) ∨ p = .raw 13 := by
  cases p with
  | flags => exact .inl rfl
  | flag f => exact .inr (.inl ⟨f, rfl⟩)
  | raw i => exact .inr (.inr (congrArg Port.raw (Fin.ext (List.mem_singleton.1 h).symm)))
  | _ => simp [portOffsets] at h

/-! ## The bits of bytes 12 and 13 no named port shows -/

theorem flagOf_congr {v w : Byte} (h : v.toNat % 64 = w.toNat % 64) (f : Flag) : flagOf f v = flagOf f w := by
  have hbit (b : Byte) : flagOf f b = (b.toNat % 64).testBit (flagBit f) := by
    rw [show 64 = 2 ^ 6 from rfl, Nat.testBit_mod_two_pow, decide_eq_true (flagBit_lt f), Bool.true_and]
    rfl
  rw [hbit, hbit, h]

/-- No port but RAW(12) shows the low nibble of byte 12 (30_encoding.md R61). -/
theorem headerPort_write_12_congr (m : Memory) {v w : Byte} {p : Port} (h : v.toNat / 16 = w.toNat / 16)
    (hp : p ≠ .raw 12) : headerPort (m.write 12 v) p = headerPort (m.write 12 w) p := by
  by_cases hmem : 12 ∈ portOffsets p
  · rcases port_of_mem_portOffsets_12 hmem with rfl | rfl
    · simp [headerPort, toNat_doffOf, h]
    · exact absurd rfl hp
  · exact headerPort_write_congr m v w hmem

/-- No port but RAW(13) shows the top two bits of byte 13 (30_encoding.md R62). -/
theorem headerPort_write_13_congr (m : Memory) {v w : Byte} {p : Port} (h : v.toNat % 64 = w.toNat % 64)
    (hp : p ≠ .raw 13) : headerPort (m.write 13 v) p = headerPort (m.write 13 w) p := by
  by_cases hmem : 13 ∈ portOffsets p
  · rcases port_of_mem_portOffsets_13 hmem with rfl | ⟨f, rfl⟩ | rfl
    · simp [headerPort, toNat_flagsOf, h]
    · simp [headerPort, flagOf_congr h]
    · exact absurd rfl hp
  · exact headerPort_write_congr m v w hmem

/-! ## DOFF and FLAGS, and what the loading commands write -/

theorem readPort_doff_of_read {s : State} {b : Byte} (hv : s.hdrValid = true) (hb : s.hdr.read 12 = some b) :
    readPort .doff s = some (b.toNat / 16) :=
  (readPort_header_eq_some (by simp) (by simp)).2 ⟨hv, Option.map_eq_some_iff.2 ⟨b, hb, toNat_doffOf b⟩⟩

theorem readPort_flags_of_read {s : State} {b : Byte} (hv : s.hdrValid = true) (hb : s.hdr.read 13 = some b) :
    readPort .flags s = some (b.toNat % 64) :=
  (readPort_header_eq_some (by simp) (by simp)).2 ⟨hv, Option.map_eq_some_iff.2 ⟨b, hb, toNat_flagsOf b⟩⟩

theorem Memory.read_12_packHeader (sport dport : Half) (seq acknum : Word) (flags : Byte) (m : Memory) :
    (m.packHeader sport dport seq acknum flags).read 12 = some 0x50 := by
  rw [Memory.read_packHeader, if_pos (by decide)]
  rfl

theorem Memory.read_13_packHeader (sport dport : Half) (seq acknum : Word) (flags : Byte) (m : Memory) :
    (m.packHeader sport dport seq acknum flags).read 13 = some flags := by
  rw [Memory.read_packHeader, if_pos (by decide)]
  rfl

/-- Settles O10: the two bytes by the command that loads them, and the ports by the bits of the bytes they show. -/
theorem bytes12And13AndTheirPorts : Obligations.Bytes12And13AndTheirPorts := by
  refine ⟨?encoders, ?decode, ?byte12, ?byte13, ?lowNibble, ?topBits⟩
  case encoders =>
    intro sport dport seq acknum flags s
    exact ⟨⟨_, exec_encode .., by simp [Memory.read_12_packHeader, Memory.read_13_packHeader]⟩,
      ⟨_, exec_encodeAck .., by simp [Memory.read_12_packHeader, Memory.read_13_packHeader]⟩⟩
  case decode =>
    intro data s hl
    exact ⟨_, exec_decode_long hl s, Memory.read_loadHeader data _ hl 12, Memory.read_loadHeader data _ hl 13⟩
  case byte12 => exact fun s v hv hb => ⟨readPort_doff_of_read hv hb, readPort_raw_of_read (i := 12) hv hb⟩
  case byte13 => exact fun s v hv hb => ⟨readPort_flags_of_read hv hb, readPort_raw_of_read (i := 13) hv hb⟩
  case lowNibble => exact fun s v w p h hp => readPort_with_hdr_congr s (headerPort_write_12_congr _ h hp)
  case topBits => exact fun s v w p h hp => readPort_with_hdr_congr s (headerPort_write_13_congr _ h hp)

end Sys2Proof.Machine
end

section
/-! PROOFS. The pseudo-header and the checksum buffer, byte by byte and word by word (30_encoding.md R70, R72). -/

namespace Sys2Proof.Machine

/-! ## Words and their bytes -/

theorem toNat_hiByte_loByte (v : Half) : (hiByte v).toNat * 256 + (loByte v).toNat = v.toNat := by
  rw [← toNat_be16, be16_put16]

theorem toNat_hiHalf (v : Word) : (hiHalf v).toNat = v.toNat / 65536 := by
  have hv := v.isLt
  rw [hiHalf, BitVec.extractLsb'_toNat, Nat.shiftRight_eq_div_pow]
  omega

theorem toNat_loHalf (v : Word) : (loHalf v).toNat = v.toNat % 65536 := by
  rw [loHalf, BitVec.extractLsb'_toNat, Nat.shiftRight_zero]

/-- `w_k` of a byte sequence: its bytes `2k` and `2k + 1`, the first most significant (30_encoding.md R72). -/
def wordAt (bytes : List Byte) (k : Nat) : Nat := (bytes.getD (2 * k) 0).toNat * 256 + (bytes.getD (2 * k + 1) 0).toNat

/-- After `n` words, the words are those of what follows. -/
theorem wordAt_append_right {u : List Byte} {n : Nat} (hu : u.length = 2 * n) (v : List Byte) (k : Nat) :
    wordAt (u ++ v) (n + k) = wordAt v k := by
  have hbyte (j : Nat) : (u ++ v).getD (2 * n + j) 0 = v.getD j 0 := by
    rw [List.getD_append_right _ _ _ _ (by omega), hu, Nat.add_sub_cancel_left]
  rw [wordAt, Nat.mul_add, hbyte, Nat.add_assoc, hbyte, wordAt]

/-! ## The layout -/

theorem length_pseudoHeader (srcip dstip : Word) : (pseudoHeader srcip dstip).length = 12 := rfl

/-- The pseudo-header's bytes (30_encoding.md R70). -/
theorem pseudoHeader_eq_bigEndian (srcip dstip : Word) :
    pseudoHeader srcip dstip = bigEndian 4 srcip.toNat ++ bigEndian 4 dstip.toNat ++ [0x00, 0x06, 0x00, 0x14] := by
  have hseg : put16 Config.segLen = [0x00, 0x14] := by decide
  rw [pseudoHeader, put32_eq_bigEndian, put32_eq_bigEndian, hseg, List.append_assoc _ _ [_, _]]
  rfl

/-- The addresses fill words 0 to 3 of the buffer, half by half (30_encoding.md R72). -/
theorem wordAt_checksumBuffer_addresses (srcip dstip : Word) (header : List Byte) :
    wordAt (checksumBuffer srcip dstip header) 0 = srcip.toNat / 65536 ∧
    wordAt (checksumBuffer srcip dstip header) 1 = srcip.toNat % 65536 ∧
    wordAt (checksumBuffer srcip dstip header) 2 = dstip.toNat / 65536 ∧
    wordAt (checksumBuffer srcip dstip header) 3 = dstip.toNat % 65536 :=
  ⟨(toNat_hiByte_loByte (hiHalf srcip)).trans (toNat_hiHalf srcip),
    (toNat_hiByte_loByte (loHalf srcip)).trans (toNat_loHalf srcip),
    (toNat_hiByte_loByte (hiHalf dstip)).trans (toNat_hiHalf dstip),
    (toNat_hiByte_loByte (loHalf dstip)).trans (toNat_loHalf dstip)⟩

/-- The header's words are the buffer's from word 6 on (30_encoding.md R72). -/
theorem wordAt_checksumBuffer_header (srcip dstip : Word) (header : List Byte) (k : Nat) :
    wordAt (checksumBuffer srcip dstip header) (6 + k) = wordAt header k :=
  wordAt_append_right (length_pseudoHeader srcip dstip) header k

/-- Settles O25: the pseudo-header is six words, and the header's words follow it. -/
theorem pseudoHeaderAndBufferLayout : Obligations.PseudoHeaderAndBufferLayout := by
  intro srcip dstip header hl word
  obtain ⟨h0, h1, h2, h3⟩ := wordAt_checksumBuffer_addresses srcip dstip header
  have hheader := wordAt_checksumBuffer_header srcip dstip header
  have hlen : (checksumBuffer srcip dstip header).length = 32 := by
    rw [checksumBuffer, List.length_append, length_pseudoHeader, hl]
  have hproto : (0x00 : Byte).toNat * 256 + Config.proto.toNat = 0x0006 := by decide
  have hseg : (hiByte Config.segLen).toNat * 256 + (loByte Config.segLen).toNat = 0x0014 := by decide
  exact ⟨pseudoHeader_eq_bigEndian srcip dstip, length_pseudoHeader srcip dstip, rfl, hlen, h0, h1, h2, h3, hproto, hseg,
    fun k _ => hheader k, hheader 8⟩

end Sys2Proof.Machine
end

section
/-! PROOFS. HOST's commands one after another, and the pseudo-instruction INSCSUM (30_encoding.md R83): the checksum it
puts into the CHECKSUM field brings the buffer's sum to a multiple of 0xFFFF, so VERIFY gives 0 (41_checksum.md R125). -/

namespace Sys2Proof.Machine

/-! ## HOST's sequences, step by step -/

@[simp] theorem andThen_next (s : State) (f : State → Host.Outcome State Fault Refusal) :
    andThen (.next s) f = f s := rfl

/-- Issuing a well-formed command runs it. -/
theorem issue_of_wf {i : Instr} (h : i.wf = true) (s : State) : issue i s = exec i s :=
  runPacket_of_decode_ok (decode_encode_of_wf h) s

/-- With a valid CSUM, its insertion is one recorded read and a SETCSUM of it (70_reset_and_hazards.md R164). -/
theorem insertCsumOut_of_csumValid {s : State} (h : s.csumValid = true) :
    insertCsumOut s = exec (.setcsum s.csum) { s with returned := s.returned ++ [(.csumOut, s.csum.toNat)] } := by
  have hport : readPort .csumOut s = some s.csum.toNat := by rw [readPort_csumOut, if_pos h]
  have hread : runEvent (.read .csumOut) s = .next { s with returned := s.returned ++ [(.csumOut, s.csum.toNat)] } :=
    runRead_of_value hport
  simp only [insertCsumOut, hport, hread, andThen_next, BitVec.ofNat_toNat, BitVec.setWidth_eq]
  exact issue_of_wf rfl _

/-! ## One 16-bit field of a run of bytes -/

/-- Writing a 16-bit field within a run of bytes changes the field's two bytes of the run. -/
theorem Memory.readFrom_write16 {m : Memory} {n : Nat} {pre post : List Byte} {x : Half}
    (h : m.readFrom 0 n = some (pre ++ put16 x ++ post)) (v : Half) :
    (m.write16 pre.length v).readFrom 0 n = some (pre ++ put16 v ++ post) := by
  rw [Memory.readFrom_eq_some] at h ⊢
  obtain ⟨hlen, hbytes⟩ := h
  refine ⟨by simpa using hlen, fun i hi => ?_⟩
  have hold := hbytes i hi
  rw [Nat.zero_add] at hold ⊢
  rw [Memory.read_write16]
  by_cases h0 : i = pre.length
  · subst h0
    simp [put16]
  · by_cases h1 : i = pre.length + 1
    · subst h1
      simp [put16]
    · rw [if_neg h0, if_neg h1, hold]
      rcases Nat.lt_or_gt_of_ne h0 with hlt | hgt
      · simp [List.getElem?_append_left, hlt]
      · rw [List.getElem?_append_right (by simp; omega), List.getElem?_append_right (by simp; omega)]
        simp

/-- A header's CHECKSUM field, bytes 16 and 17, between what stands before it and after it (30_encoding.md R60). -/
theorem exists_checksum_field {header : List Byte} (h : header.length = 20) :
    ∃ pre x post, header = pre ++ put16 x ++ post ∧ pre.length = 16 := by
  refine ⟨header.take 16, be16 header[16] header[17], header.drop 18, ?_, by simp [h]⟩
  have hrest : [header[16], header[17]] ++ header.drop 18 = header.drop 16 := by simp
  rw [put16_be16, List.append_assoc, hrest, List.take_append_drop]

/-! ## The checksum inserted -/

/-- A buffer whose sum is another's and that one's checksum has checksum 0: its sum is a positive multiple of 0xFFFF
(41_checksum.md R125). -/
theorem ocsum_eq_zero_of_wordSum_eq {bytes bytes' : List Byte} (hpos : 0 < wordSum bytes)
    (h : wordSum bytes' = wordSum bytes + (ocsum bytes).toNat) : ocsum bytes' = 0 := by
  apply BitVec.eq_of_toNat_eq
  rw [toNat_ocsum, carryFold_pos hpos] at h
  rw [toNat_ocsum, carryFold_pos (by omega), show (0 : Half).toNat = 0 from rfl]
  omega

/-- The CHECKSUM field's part in the buffer's sum is its value. -/
theorem wordSum_checksumBuffer_field {pre : List Byte} (hpre : pre.length = 16) (srcip dstip : Word) (v : Half)
    (post : List Byte) :
    wordSum (checksumBuffer srcip dstip (pre ++ put16 v ++ post)) =
      wordSum (checksumBuffer srcip dstip (pre ++ put16 0 ++ post)) + v.toNat := by
  have hsum (w : Half) : wordSum (pre ++ put16 w ++ post) = wordSum pre + w.toNat + wordSum post := by
    rw [wordSum_append _ _ (by simp [hpre]), wordSum_append _ _ (by simp [hpre]), wordSum_put16]
  rw [wordSum_checksumBuffer, wordSum_checksumBuffer, hsum, hsum, show (0 : Half).toNat = 0 from rfl]
  omega

theorem wordSum_checksumBuffer_pos (srcip dstip : Word) (header : List Byte) :
    0 < wordSum (checksumBuffer srcip dstip header) := by
  rw [wordSum_checksumBuffer]
  omega

/-- The checksum over a zero CHECKSUM field, put into the field, verifies (41_checksum.md R125). -/
theorem ocsum_checksum_inserted {pre : List Byte} (hpre : pre.length = 16) (srcip dstip : Word) (post : List Byte) :
    ocsum (checksumBuffer srcip dstip
      (pre ++ put16 (ocsum (checksumBuffer srcip dstip (pre ++ put16 0 ++ post))) ++ post)) = 0 :=
  ocsum_eq_zero_of_wordSum_eq (wordSum_checksumBuffer_pos ..) (wordSum_checksumBuffer_field hpre ..)

/-! ## INSCSUM and VERIFY -/

/-- SETCSUM over a segment changes the CHECKSUM field and records no error (40_codec.md R98). -/
theorem exec_setcsum_of_segment {s : State} {pre post : List Byte} {x : Half} (hv : s.hdrValid = true)
    (hpre : pre.length = 16) (hr : s.hdr.readFrom 0 20 = some (pre ++ put16 x ++ post)) (v : Half) :
    ∃ t, exec (.setcsum v) s = .next t ∧ t.hdrValid = true ∧ t.hdr.readFrom 0 20 = some (pre ++ put16 v ++ post) ∧
      t.errSeen = s.errSeen :=
  ⟨_, exec_setcsum_valid hv v, State.hdrValid_succeed .., hpre ▸ Memory.readFrom_write16 hr v, by simp⟩

/-- CSUM over a segment gives the buffer's checksum, leaves HDR, and records no error (41_checksum.md R122). -/
theorem exec_csum_of_segment {s : State} {header : List Byte} (hv : s.hdrValid = true)
    (hr : s.hdr.readFrom 0 20 = some header) (srcip dstip : Word) :
    ∃ t, exec (.csum srcip dstip) s = .next t ∧ t.hdrValid = true ∧ t.hdr.readFrom 0 20 = some header ∧
      t.csumValid = true ∧ t.csum = ocsum (checksumBuffer srcip dstip header) ∧ t.err = 0 ∧ t.errSeen = s.errSeen :=
  ⟨_, exec_csum_valid hv hr srcip dstip, State.hdrValid_succeed .., hr, State.csumValid_succeed .., rfl,
    State.err_succeed .., by simp⟩

/-- INSCSUM over a segment puts the checksum over a zero CHECKSUM field into the field, and records no error
(30_encoding.md R83). -/
theorem runPseudo_inscsum_of_segment {s : State} {pre post : List Byte} {x : Half} (hv : s.hdrValid = true)
    (hpre : pre.length = 16) (hr : s.hdr.readFrom 0 20 = some (pre ++ put16 x ++ post)) (srcip dstip : Word) :
    ∃ t, runPseudo (.inscsum srcip dstip) s = .next t ∧ t.hdrValid = true ∧
      t.hdr.readFrom 0 20 =
        some (pre ++ put16 (ocsum (checksumBuffer srcip dstip (pre ++ put16 0 ++ post))) ++ post) ∧
      t.errSeen = s.errSeen := by
  obtain ⟨s1, h1, hv1, hr1, he1⟩ := exec_setcsum_of_segment hv hpre hr 0
  obtain ⟨s2, h2, hv2, hr2, hc2, hcsum, -, he2⟩ := exec_csum_of_segment hv1 hr1 srcip dstip
  obtain ⟨t, h3, hv3, hr3, he3⟩ := exec_setcsum_of_segment
    (s := { s2 with returned := s2.returned ++ [(.csumOut, s2.csum.toNat)] }) hv2 hpre hr2 s2.csum
  have hrun : runPseudo (.inscsum srcip dstip) s = .next t := by
    simp only [runPseudo]
    rw [issue_of_wf rfl, h1, andThen_next, issue_of_wf rfl, h2, andThen_next, insertCsumOut_of_csumValid hc2, h3]
  exact ⟨t, hrun, hv3, hcsum ▸ hr3, he3.trans (he2.trans he1)⟩

/-- VERIFY passes over a segment whose buffer has checksum 0 (30_encoding.md R83). -/
theorem runPseudo_verify_of_ocsum_eq_zero {s : State} {header : List Byte} {srcip dstip : Word} (hv : s.hdrValid = true)
    (hr : s.hdr.readFrom 0 20 = some header) (hzero : ocsum (checksumBuffer srcip dstip header) = 0) :
    ∃ t, runPseudo (.verify srcip dstip) s = .next t ∧ verifyPasses t = true := by
  obtain ⟨t, ht, -, -, hcv, hcsum, herr, -⟩ := exec_csum_of_segment hv hr srcip dstip
  refine ⟨t, (issue_of_wf rfl s).trans ht, ?_⟩
  simp [verifyPasses, readPort_csumOut, hcv, hcsum, herr, hzero]

/-- Settles O53: the header that INSCSUM leaves is the one whose buffer has checksum 0. -/
theorem inscsumMakesVerifyPass : Obligations.InscsumMakesVerifyPass := by
  intro srcip dstip s ⟨_, _, hwritten, _⟩ hv
  obtain ⟨header, hr⟩ := Option.isSome_iff_exists.1 (hwritten hv)
  obtain ⟨pre, x, post, rfl, hpre⟩ := exists_checksum_field ((Memory.readFrom_eq_some ..).1 hr).1
  obtain ⟨t, ht, htv, htr, hseen⟩ := runPseudo_inscsum_of_segment hv hpre hr srcip dstip
  obtain ⟨u, hu, hpass⟩ := runPseudo_verify_of_ocsum_eq_zero htv htr (ocsum_checksum_inserted hpre srcip dstip post)
  exact ⟨t, u, ht, hseen, hu, hpass⟩

end Sys2Proof.Machine
end

section
/-! PROOFS. Packets that are no command, by the length their opcode has (30_encoding.md R78, 60_exceptions.md R141). -/

namespace Sys2Proof.Machine

/-- The opcodes whose packets have one length, and that length (30_encoding.md R76). -/
def fixedLengths : List (Byte × Nat) := [(0x01, 10), (0x02, 14), (0x04, 9), (0x05, 3)]

/-- A fixed-length command of another length fails R78's check. -/
theorem not_packetWf_of_length_ne {op : Byte} {n : Nat} (hop : (op, n) ∈ fixedLengths) {pkt : List Byte}
    (h : pkt.head? = some op) (hl : pkt.length ≠ n) : ¬PacketWf pkt := by
  rw [List.head?_eq_getElem?] at h
  simp only [fixedLengths, List.mem_cons, Prod.mk.injEq, List.not_mem_nil, or_false] at hop
  rcases hop with ⟨rfl, rfl⟩ | ⟨rfl, rfl⟩ | ⟨rfl, rfl⟩ | ⟨rfl, rfl⟩ <;> simp [PacketWf, h, hl]

/-- A DECODE with more than MAX_DECODE_LEN data bytes fails R78's check. -/
theorem not_packetWf_of_data_too_long {data : List Byte} (h : Config.maxDecodeLen < data.length) :
    ¬PacketWf (opDecode :: data) := by
  have hlong : ¬data.length + 1 ≤ 1 + Config.maxDecodeLen := by omega
  simp [PacketWf, opDecode, hlong]

/-- A packet that fails R78's check ends in ILLEGAL_COMMAND, and nothing else changes (60_exceptions.md R141, R143). -/
theorem failsAs_of_not_packetWf {pkt : List Byte} (h : ¬PacketWf pkt) (s : State) :
    ∃ t, runPacket pkt s = .next t ∧ s.failsAs 2 t :=
  (packetIsACommandExactlyWhenWellFormed pkt s).2.1 h

end Sys2Proof.Machine
end

section
/-! PROOFS. The ports that show HDR, from the bytes HDR holds (40_codec.md section 5), and the ports without a value
(R116). -/

namespace Sys2Proof.Machine

/-! ## A port from what HDR holds -/

/-- HDR's bytes one by one, of the 20 read together. -/
theorem Memory.read_of_readFrom {m : Memory} {header : List Byte} (h : m.readFrom 0 20 = some header) (i : Fin 20) :
    m.read i.val = some (header.getD i.val 0) := by
  obtain ⟨hlen, hbytes⟩ := (Memory.readFrom_eq_some ..).1 h
  have hi := hbytes i.val i.isLt
  have hlt : i.val < header.length := by omega
  rw [Nat.zero_add, List.getElem?_eq_getElem hlt] at hi
  rw [hi, List.getD_eq_getElem _ _ hlt]

/-- A port that shows HDR has the value its bytes give it while there is a segment. -/
theorem readPort_of_headerPort {α : Type} {p : Port} {s : State} {f : α → Nat} {x : Option α} {a : α}
    (h1 : p ≠ .csumOut) (h2 : p ≠ .statusOut) (hp : headerPort s.hdr p = x.map f) (hv : s.hdrValid = true)
    (hx : x = some a) : readPort p s = some (f a) :=
  (readPort_header_eq_some h1 h2).2 ⟨hv, hp.trans (congrArg (Option.map f) hx)⟩

theorem Memory.read16_of_read {m : Memory} {o : Nat} {a b : Byte} (ha : m.read o = some a)
    (hb : m.read (o + 1) = some b) : m.read16 o = some (be16 a b) :=
  Memory.read16_eq_some.2 ⟨a, b, ha, hb, rfl⟩

theorem Memory.read32_of_read {m : Memory} {o : Nat} {a b c d : Byte} (ha : m.read o = some a)
    (hb : m.read (o + 1) = some b) (hc : m.read (o + 2) = some c) (hd : m.read (o + 3) = some d) :
    m.read32 o = some (be32 a b c d) :=
  Memory.read32_eq_some.2 ⟨_, _, Memory.read16_of_read ha hb, Memory.read16_of_read hc hd, rfl⟩

/-- The port of a 16-bit field shows the value of the field's bytes, most significant first. -/
theorem readPort_of_read16 {p : Port} {s : State} {o : Nat} {a b : Byte} (h1 : p ≠ .csumOut) (h2 : p ≠ .statusOut)
    (hp : headerPort s.hdr p = (s.hdr.read16 o).map BitVec.toNat) (hv : s.hdrValid = true)
    (ha : s.hdr.read o = some a) (hb : s.hdr.read (o + 1) = some b) :
    readPort p s = some (a.toNat * 256 + b.toNat) := by
  rw [← toNat_be16]
  exact readPort_of_headerPort h1 h2 hp hv (Memory.read16_of_read ha hb)

/-- The port of a 32-bit field shows the value of the field's bytes, most significant first. -/
theorem readPort_of_read32 {p : Port} {s : State} {o : Nat} {a b c d : Byte} (h1 : p ≠ .csumOut) (h2 : p ≠ .statusOut)
    (hp : headerPort s.hdr p = (s.hdr.read32 o).map BitVec.toNat) (hv : s.hdrValid = true)
    (ha : s.hdr.read o = some a) (hb : s.hdr.read (o + 1) = some b) (hc : s.hdr.read (o + 2) = some c)
    (hd : s.hdr.read (o + 3) = some d) :
    readPort p s = some (((a.toNat * 256 + b.toNat) * 256 + c.toNat) * 256 + d.toNat) := by
  have hbytes : (be32 a b c d).toNat = ((a.toNat * 256 + b.toNat) * 256 + c.toNat) * 256 + d.toNat := by
    rw [toNat_be32]
    omega
  rw [← hbytes]
  exact readPort_of_headerPort h1 h2 hp hv (Memory.read32_of_read ha hb hc hd)

/-- Settles O14: each port by the offset of its field. -/
theorem fieldPortsReadBigEndian : Obligations.FieldPortsReadBigEndian := by
  intro s b hv hb
  refine ⟨?srcPort, ?dstPort, ?seq, ?acknum, fun i => readPort_raw_of_read hv (hb i)⟩
  case srcPort => exact readPort_of_read16 nofun nofun rfl hv (hb 0) (hb 1)
  case dstPort => exact readPort_of_read16 nofun nofun rfl hv (hb 2) (hb 3)
  case seq => exact readPort_of_read32 nofun nofun rfl hv (hb 4) (hb 5) (hb 6) (hb 7)
  case acknum => exact readPort_of_read32 nofun nofun rfl hv (hb 8) (hb 9) (hb 10) (hb 11)

/-- WINDOW, CHECKSUM and URGPTR show the fields at 14, 16 and 18 (40_codec.md R112 to R114). -/
theorem tail_ports_of_reads {s : State} {b : Fin 20 → Byte} (hv : s.hdrValid = true)
    (hb : ∀ i, s.hdr.read i.val = some (b i)) :
    readPort .window s = some ((b 14).toNat * 256 + (b 15).toNat) ∧
    readPort .checksum s = some ((b 16).toNat * 256 + (b 17).toNat) ∧
    readPort .urgptr s = some ((b 18).toNat * 256 + (b 19).toNat) :=
  ⟨readPort_of_read16 nofun nofun rfl hv (hb 14) (hb 15), readPort_of_read16 nofun nofun rfl hv (hb 16) (hb 17),
    readPort_of_read16 nofun nofun rfl hv (hb 18) (hb 19)⟩

/-! ## Ports without a value -/

/-- Settles O17: a read of a port without a value is the fault, and STATUS_OUT always has one. -/
theorem portsWithoutAValueFault : Obligations.PortsWithoutAValueFault := by
  refine ⟨fun s p hv h1 h2 => runRead_fault_of_hdrValid_eq_false hv h1 h2, fun s hv => ?csumOut,
    fun s => ⟨_, _, runRead_of_value (p := .statusOut) (s := s) rfl, rfl⟩⟩
  case csumOut => exact runRead_of_no_value (by simp [readPort_csumOut, hv])

end Sys2Proof.Machine
end

section
/-! PROOFS. The commands of the Segment Codec (40_codec.md R91 to R98): what each leaves in HDR and STATUS. -/

namespace Sys2Proof.Machine

/-! ## A success that writes HDR -/

/-- From `s`, a command that wrote HDR and raised nothing led to `t`: ERR is 0, HDR_VALID is as given, and all but HDR is as
it was (40_codec.md R91). -/
abbrev State.succeedsAs (hdrValid : Bool) (s t : State) : Prop :=
  t.err = 0 ∧ t.hdrValid = hdrValid ∧ t.errSeen = s.errSeen ∧ t.csum = s.csum ∧ t.csumValid = s.csumValid ∧
  s.hostSame t

theorem State.succeedsAs_succeed (hdrValid : Bool) (s : State) (m : Memory) :
    s.succeedsAs hdrValid (State.succeed hdrValid s.csumValid { s with hdr := m }) := by
  simp [State.succeedsAs, State.hostSame]

/-! ## ENCODE and ENCODE_ACK -/

/-- Settles O9: ENCODE is ENCODE_ACK with acknowledgement number 0, by definition of both. -/
theorem encodeAckWithZeroIsEncode : Obligations.EncodeAckWithZeroIsEncode := by
  intro sport dport seq flags s
  rw [exec_encodeAck, exec_encode]

/-- ENCODE_ACK leaves its header's image in HDR, and nothing else but STATUS changes (40_codec.md R93). -/
theorem exec_encodeAck_writes (sport dport : Half) (seq acknum : Word) (flags : Byte) (s : State) :
    ∃ t, exec (.encodeAck sport dport seq acknum flags) s = .next t ∧
      t.hdr.readFrom 0 20 = some (headerImage sport dport seq acknum flags) ∧
      (∀ a, 20 ≤ a → t.hdr.read a = s.hdr.read a) ∧ s.succeedsAs true t := by
  refine ⟨_, exec_encodeAck .., ?image, fun a ha => ?beyond, State.succeedsAs_succeed ..⟩
  case image => rw [State.hdr_succeed, Memory.readFrom_packHeader]
  case beyond => rw [State.hdr_succeed, Memory.read_packHeader_of_le _ _ _ _ _ _ ha]

/-- Settles O8: the header's image and the frame; the example is the image evaluated. -/
theorem encodeAckWritesAFreshHeader : Obligations.EncodeAckWritesAFreshHeader := by
  refine ⟨exec_encodeAck_writes, fun pkt s hop hl => ?wrongLength, fun s => ?sample⟩
  case wrongLength => exact failsAs_of_not_packetWf (not_packetWf_of_length_ne (by decide) hop hl) s
  case sample =>
    obtain ⟨t, ht, hr, -⟩ := exec_encodeAck_writes 54321 80 1001 0x12345679 0x10 s
    exact ⟨t, ht, hr.trans (by decide)⟩

/-- Settles O7: what ENCODE_ACK does with acknowledgement number 0, whose four bytes are 0. -/
theorem encodeWritesAFreshHeader : Obligations.EncodeWritesAFreshHeader := by
  unfold Obligations.EncodeWritesAFreshHeader
  simp only [← encodeAckWithZeroIsEncode _ _ _ _ _]
  refine ⟨fun sport dport seq => exec_encodeAck_writes sport dport seq 0, fun pkt s hop hl => ?wrongLength,
    fun s => ?sample⟩
  case wrongLength => exact failsAs_of_not_packetWf (not_packetWf_of_length_ne (by decide) hop hl) s
  case sample =>
    obtain ⟨t, ht, hr, -⟩ := exec_encodeAck_writes 54321 80 1000 0 0x02 s
    exact ⟨t, ht, hr.trans (by decide)⟩

/-! ## DECODE -/

/-- DECODE of at least 20 bytes leaves the first 20 in HDR, and nothing else but STATUS changes (40_codec.md R96). -/
theorem exec_decode_writes {data : List Byte} (h : 20 ≤ data.length) (s : State) :
    ∃ t, exec (.decode data) s = .next t ∧
      t.hdr.readFrom 0 20 = some (data.take 20) ∧ (∀ a, 20 ≤ a → t.hdr.read a = s.hdr.read a) ∧ s.succeedsAs true t :=
  ⟨_, exec_decode_long h s, Memory.readFrom_loadHeader data _ h, fun _ ha => Memory.read_loadHeader_of_le h _ ha,
    State.succeedsAs_succeed ..⟩

/-- The segment of the rule's example (40_codec.md R96). -/
def sampleSegment : List Byte :=
  [0x00, 0x50, 0xD4, 0x31, 0x12, 0x34, 0x56, 0x78, 0x00, 0x00,
    0x03, 0xE9, 0x50, 0x12, 0xFF, 0xFF, 0x8A, 0x46, 0x00, 0x00]

/-- Settles O11, by the length of the data; the example's ports are those of the 20 bytes loaded. -/
theorem decodeLoadsTheHeader : Obligations.DecodeLoadsTheHeader := by
  refine ⟨fun data s h => exec_decode_writes h s, fun data s h => ?short, fun data s h => ?tooLong, fun s => ?sample⟩
  case short => exact ⟨_, exec_decode_short h s, by simp [State.hostSame]⟩
  case tooLong => exact failsAs_of_not_packetWf (not_packetWf_of_data_too_long h) s
  case sample =>
    obtain ⟨t, ht, hr, -, -, hv, -⟩ := exec_decode_writes (data := sampleSegment) (by decide) s
    have hb := Memory.read_of_readFrom hr
    obtain ⟨hsrc, hdst, hseq, hack, -⟩ := fieldPortsReadBigEndian t _ hv hb
    obtain ⟨-, hcsum, -⟩ := tail_ports_of_reads hv hb
    have hflags := readPort_flags_of_read hv (hb 13)
    exact ⟨t, ht, hsrc.trans (by decide), hdst.trans (by decide), hseq.trans (by decide), hack.trans (by decide),
      hflags.trans (by decide), hcsum.trans (by decide)⟩

/-- Loading the bytes HDR holds leaves HDR as it is, as data: its canonical form is determined by its bytes. -/
theorem Memory.loadHeader_of_readFrom {m : Memory} {header : List Byte} (hwf : m.wf)
    (h : m.readFrom 0 20 = some header) : m.loadHeader header = m := by
  obtain ⟨hlen, hbytes⟩ := (Memory.readFrom_eq_some ..).1 h
  refine Memory.eq_of_reads (Memory.wf_loadHeader hwf header) hwf fun a => ?_
  rw [Memory.read_loadHeader header m hlen.ge]
  split_ifs with ha
  · rw [← hbytes a ha, Nat.zero_add]
  · rfl

/-- Settles O12: the bytes loaded are the first 20, and HDR's own are in place already. -/
theorem decodeIgnoresTheTailAndReproducesHdr : Obligations.DecodeIgnoresTheTailAndReproducesHdr := by
  refine ⟨fun data tail s hl => ?tail, fun s header hInv hr => ?own⟩
  case tail =>
    have hload (m : Memory) : m.loadHeader (data ++ tail) = m.loadHeader data := by
      rw [Memory.loadHeader, Memory.loadHeader, List.take_append_of_le_length hl.ge]
    rw [exec_decode_long (by simp [hl]), exec_decode_long hl.ge, hload]
  case own =>
    obtain ⟨hwf, -⟩ := hInv
    have hlen := ((Memory.readFrom_eq_some ..).1 hr).1
    exact ⟨_, exec_decode_long hlen.ge s, Memory.loadHeader_of_readFrom hwf hr⟩

/-! ## SETCSUM -/

/-- The high and the low byte of a 16-bit value as numbers (00_scope.md R13). -/
theorem hiByte_loByte_eq_ofNat (v : Half) :
    hiByte v = BitVec.ofNat 8 (v.toNat / 256) ∧ loByte v = BitVec.ofNat 8 v.toNat := by
  have h : [hiByte v, loByte v] = [BitVec.ofNat 8 (v.toNat / 256), BitVec.ofNat 8 v.toNat] := put16_eq_bigEndian v
  simpa using h

/-- SETCSUM with a segment leaves its value's two bytes at 16 and 17, and nothing else but STATUS changes
(40_codec.md R98). -/
theorem exec_setcsum_writes {s : State} (hv : s.hdrValid = true) (value : Half) :
    ∃ t, exec (.setcsum value) s = .next t ∧
      t.hdr.read 16 = some (BitVec.ofNat 8 (value.toNat / 256)) ∧ t.hdr.read 17 = some (BitVec.ofNat 8 value.toNat) ∧
      (∀ a, a ≠ 16 → a ≠ 17 → t.hdr.read a = s.hdr.read a) ∧ s.succeedsAs s.hdrValid t := by
  obtain ⟨hhi, hlo⟩ := hiByte_loByte_eq_ofNat value
  have hframe := State.succeedsAs_succeed true s (s.hdr.write16 16 value)
  refine ⟨_, exec_setcsum_valid hv value, ?hi, ?lo, fun a h1 h2 => Memory.read_write16_of_ne _ _ h1 h2, hv.symm ▸ hframe⟩
  case hi => simp [Memory.read_write16, hhi]
  case lo => simp [Memory.read_write16, hlo]

/-- Settles O13, by whether there is a segment. -/
theorem setcsumWritesTheChecksumField : Obligations.SetcsumWritesTheChecksumField := by
  refine ⟨fun value s hv => exec_setcsum_writes hv value, fun value s hv => ?noSegment, fun pkt s hop hl => ?wrongLength,
    fun s hv => ?sample⟩
  case noSegment => exact ⟨_, exec_setcsum_invalid hv value, State.failsAs_raiseError s .noSegment⟩
  case wrongLength => exact failsAs_of_not_packetWf (not_packetWf_of_length_ne (by decide) hop hl) s
  case sample =>
    obtain ⟨t, ht, h16, h17, -⟩ := exec_setcsum_writes hv 0xF303
    exact ⟨t, ht, h16, h17⟩

/-! ## Which valid bits a success writes -/

/-- Settles O37, by the command: the equation of its success, and that its other end has an error code. -/
theorem successWritesOnlyItsOwnValidBits : Obligations.SuccessWritesOnlyItsOwnValidBits := by
  unfold Obligations.SuccessWritesOnlyItsOwnValidBits
  intro succeeds
  refine ⟨fun i s h => ?success, fun i s t h he => ?converse⟩
  case success =>
    cases i with
    | encode => exact ⟨_, exec_encode .., by simp⟩
    | encodeAck => exact ⟨_, exec_encodeAck .., by simp⟩
    | decode data => exact ⟨_, exec_decode_long h s, by simp⟩
    | csum srcip dstip =>
      obtain ⟨hv, hwritten⟩ := h
      obtain ⟨header, hr⟩ := Option.isSome_iff_exists.1 hwritten
      exact ⟨_, exec_csum_valid hv hr srcip dstip, by simp [hv]⟩
    | setcsum value =>
      have hv : s.hdrValid = true := h
      exact ⟨_, exec_setcsum_valid hv value, by simp [hv]⟩
  case converse =>
    cases i with
    | encode => trivial
    | encodeAck => trivial
    | decode data =>
      rcases exec_decode_next h with ⟨hl, -⟩ | ⟨-, rfl⟩
      · exact hl
      · simp at he
    | csum srcip dstip =>
      rcases exec_csum_next h with ⟨hv, header, hr, -⟩ | ⟨-, rfl⟩
      · exact ⟨hv, Option.isSome_iff_exists.2 ⟨header, hr⟩⟩
      · simp [errBits] at he
    | setcsum value =>
      rcases exec_setcsum_next h with ⟨hv, -⟩ | ⟨-, rfl⟩
      · exact hv
      · simp [errBits] at he

end Sys2Proof.Machine
end

section
/-! PROOFS. What the ports show after a command of the codec (40_codec.md R112 to R118): a segment that is the image of a
header shows that header's fields. -/

namespace Sys2Proof.Machine

/-! ## The ports of a header's image -/

/-- The image of a header, byte by byte (30_encoding.md R60). -/
theorem headerImage_eq (sport dport : Half) (seq acknum : Word) (flags : Byte) :
    headerImage sport dport seq acknum flags =
      [hiByte sport, loByte sport, hiByte dport, loByte dport,
        hiByte (hiHalf seq), loByte (hiHalf seq), hiByte (loHalf seq), loByte (loHalf seq),
        hiByte (hiHalf acknum), loByte (hiHalf acknum), hiByte (loHalf acknum), loByte (loHalf acknum),
        0x50, flags, 0xFF, 0xFF, 0x00, 0x00, 0x00, 0x00] := by
  simp only [headerImage, ← put16_eq_bigEndian, ← put32_eq_bigEndian]
  rfl

/-- A 32-bit value from its four bytes. -/
theorem toNat_bytes32 (v : Word) :
    (((hiByte (hiHalf v)).toNat * 256 + (loByte (hiHalf v)).toNat) * 256 + (hiByte (loHalf v)).toNat) * 256 +
      (loByte (loHalf v)).toNat = v.toNat := by
  have h := toNat_be32 (hiByte (hiHalf v)) (loByte (hiHalf v)) (hiByte (loHalf v)) (loByte (loHalf v))
  rw [be32_put32] at h
  omega

section HeaderImage
variable {t : State} {sport dport : Half} {seq acknum : Word} {flags : Byte}
  (hr : t.hdr.readFrom 0 20 = some (headerImage sport dport seq acknum flags))
include hr

/-- The constants every encoded header carries (40_codec.md R112 to R114). -/
theorem tail_ports_of_headerImage (hv : t.hdrValid = true) :
    readPort .window t = some 0xFFFF ∧ readPort .checksum t = some 0 ∧ readPort .urgptr t = some 0 := by
  rw [headerImage_eq] at hr
  simpa using tail_ports_of_reads hv (Memory.read_of_readFrom hr)

/-- Byte 13 is the flag byte (30_encoding.md R62). -/
theorem read_13_of_headerImage : t.hdr.read 13 = some flags := by
  rw [headerImage_eq] at hr
  exact Memory.read_of_readFrom hr 13

/-- Every field port shows its operand or its constant, if the flags are within the six bits FLAGS shows. -/
theorem showsFields_of_headerImage (hv : t.hdrValid = true) (hf : flags.toNat < 0x40) :
    t.showsFields sport dport seq acknum flags := by
  have htail := tail_ports_of_headerImage hr hv
  have hflags := readPort_flags_of_read hv (read_13_of_headerImage hr)
  rw [Nat.mod_eq_of_lt hf] at hflags
  rw [headerImage_eq] at hr
  have hb := Memory.read_of_readFrom hr
  obtain ⟨hsrc, hdst, hseq, hack, -⟩ := fieldPortsReadBigEndian t _ hv hb
  have hdoff : readPort .doff t = some ((0x50 : Byte).toNat / 16) := readPort_doff_of_read hv (hb 12)
  exact ⟨hsrc.trans (congrArg some (toNat_hiByte_loByte sport)), hdst.trans (congrArg some (toNat_hiByte_loByte dport)),
    hseq.trans (congrArg some (toNat_bytes32 seq)), hack.trans (congrArg some (toNat_bytes32 acknum)), hdoff, hflags,
    htail⟩

/-- A DECODE of the raw bytes shows the same fields again. -/
theorem showsFields_after_decode (hf : flags.toNat < 0x40) :
    ∃ header u, t.hdr.readFrom 0 20 = some header ∧ exec (.decode header) t = .next u ∧
      u.showsFields sport dport seq acknum flags := by
  obtain ⟨u, hu, hur, -, -, huv, -⟩ := exec_decode_writes (length_headerImage sport dport seq acknum flags).ge t
  exact ⟨_, u, hr, hu, showsFields_of_headerImage hur huv hf⟩

end HeaderImage

/-! ## The statements on the ports after a command -/

/-- Settles O20: both encoders leave a header's image, and so does the DECODE of it. -/
theorem encodedFieldsReadBack : Obligations.EncodedFieldsReadBack := by
  intro sport dport seq acknum flags s hf
  have hack (acknum : Word) : ∃ t header u, exec (.encodeAck sport dport seq acknum flags) s = .next t ∧
      t.showsFields sport dport seq acknum flags ∧ t.hdr.readFrom 0 20 = some header ∧
      exec (.decode header) t = .next u ∧ u.showsFields sport dport seq acknum flags := by
    obtain ⟨t, ht, hr, -, -, hv, -⟩ := exec_encodeAck_writes sport dport seq acknum flags s
    obtain ⟨header, u, hh, hu, hshows⟩ := showsFields_after_decode hr hf
    exact ⟨t, header, u, ht, showsFields_of_headerImage hr hv hf, hh, hu, hshows⟩
  exact ⟨encodeAckWithZeroIsEncode .. ▸ hack 0, hack acknum⟩

/-- Settles O16: the fields' bytes, and what each command leaves in them. -/
theorem windowChecksumAndUrgptrPorts : Obligations.WindowChecksumAndUrgptrPorts := by
  refine ⟨fun s b hv hb => tail_ports_of_reads hv hb, fun sport dport seq acknum flags s => ?encoders,
    fun value s hv => ?setcsum, fun data tail s => ?decode⟩
  case encoders =>
    have hack (acknum : Word) : ∃ t, exec (.encodeAck sport dport seq acknum flags) s = .next t ∧
        readPort .window t = some 0xFFFF ∧ readPort .checksum t = some 0 ∧ readPort .urgptr t = some 0 := by
      obtain ⟨t, ht, hr, -, -, hv, -⟩ := exec_encodeAck_writes sport dport seq acknum flags s
      exact ⟨t, ht, tail_ports_of_headerImage hr hv⟩
    exact ⟨encodeAckWithZeroIsEncode .. ▸ hack 0, hack acknum⟩
  case setcsum =>
    obtain ⟨t, ht, h16, h17, -, -, htv, -⟩ := exec_setcsum_writes hv value
    obtain ⟨hhi, hlo⟩ := hiByte_loByte_eq_ofNat value
    have hport := readPort_of_read16 (p := .checksum) nofun nofun rfl (htv.trans hv) h16 h17
    rw [← hhi, ← hlo, toNat_hiByte_loByte] at hport
    exact ⟨t, ht, hport⟩
  case decode =>
    obtain ⟨t, ht, hr, -, -, hv, -⟩ := exec_decode_writes (data := List.ofFn data ++ tail) (by simp) s
    refine ⟨t, ht, tail_ports_of_reads hv fun i => ?_⟩
    rw [Memory.read_of_readFrom hr, List.take_append_of_le_length (by simp), List.take_of_length_le (by simp)]
    simp [-List.ofFn_succ]

/-! ## Flags -/

theorem flagOf_or (f : Flag) (a b : Byte) : flagOf f (a ||| b) = (flagOf f a || flagOf f b) :=
  BitVec.getLsbD_or

/-- The masks of two flags have no bit in common (30_encoding.md R63). -/
theorem flagOf_flagMask (f g : Flag) : flagOf f (flagMask g) = decide (f = g) := by
  cases f <;> cases g <;> decide

/-- The flag byte of a set of flags holds a flag exactly when it is in the set. -/
theorem flagOf_flagByte (f : Flag) (set : List Flag) : flagOf f (flagByte set) = decide (f ∈ set) := by
  induction set with
  | nil => simp [flagByte, flagOf]
  | cons g rest ih => simp [flagByte, flagOf_or, flagOf_flagMask, ih]

/-- Settles O21: the flag byte is written as it is, and each flag port reads its own bit. -/
theorem flagsAreIndependent : Obligations.FlagsAreIndependent := by
  intro set sport dport seq s
  obtain ⟨t, ht, hr, -, -, hv, -⟩ := exec_encodeAck_writes sport dport seq 0 (flagByte set) s
  refine ⟨t, encodeAckWithZeroIsEncode .. ▸ ht, fun f => ?_⟩
  have hport := readPort_of_headerPort (p := .flag f) nofun nofun rfl hv (read_13_of_headerImage hr)
  rw [hport, flagOf_flagByte, Bool.toNat, Bool.cond_decide]

end Sys2Proof.Machine
end

section
/-! PROOFS. The invariant `State.Inv`: each way a delivery ends keeps it, and so does every step (10_state.md sections
1 to 5). Of the commands only a success writes HDR or CSUM or sets a valid bit, and it ends with all 20 bytes written. -/

namespace Sys2Proof.Machine

/-! ## A checksum is not 0xFFFF -/

/-- A positive sum folds to at least 1, so its complement is not 0xFFFF (41_checksum.md R129). -/
theorem ocsum_ne_FFFF {bytes : List Byte} (h : 0 < wordSum bytes) : ocsum bytes ≠ 0xFFFF := by
  intro he
  have hn : (ocsum bytes).toNat = 65535 := congrArg BitVec.toNat he
  rw [toNat_ocsum, carryFold_pos h] at hn
  omega

theorem ocsum_checksumBuffer_ne_FFFF (srcip dstip : Word) (header : List Byte) :
    ocsum (checksumBuffer srcip dstip header) ≠ 0xFFFF :=
  ocsum_ne_FFFF (wordSum_checksumBuffer_pos srcip dstip header)

/-! ## The writes of HDR leave it written -/

theorem Memory.readFrom_write16_isSome {m : Memory} {n : Nat} (h : (m.readFrom 0 n).isSome = true) (o : Nat)
    (v : Half) : ((m.write16 o v).readFrom 0 n).isSome = true := by
  rw [Memory.readFrom_isSome] at h ⊢
  intro i hi
  rw [Memory.read_write16]
  split_ifs
  · rfl
  · rfl
  · exact h i hi

/-! ## Each end of a delivery keeps the invariant -/

section Inv
variable {s t : State}

/-- A success that leaves HDR written and CSUM, where valid, not 0xFFFF ends in a state that meets the invariant,
whatever the state before it was. -/
theorem State.inv_succeed {m : Memory} {c : Half} {hdrValid csumValid : Bool} (hwf : m.wf)
    (hwritten : (m.readFrom 0 20).isSome = true) (hc : csumValid = true → c ≠ 0xFFFF) :
    (State.succeed hdrValid csumValid { s with hdr := m, csum := c }).Inv :=
  ⟨hwf, .inr hwritten, fun _ => hwritten, fun _ => hwritten, packStatus_bit7 .., by simp, by simp, by simpa using hc⟩

theorem errBits_le (e : ErrCode) : errBits e ≤ 3 := by
  cases e <;> decide

theorem State.inv_raiseError (h : s.Inv) (e : ErrCode) : (s.raiseError e).Inv := by
  obtain ⟨hwf, hall, hhdr, hcsum, -, -, -, hrange⟩ := h
  exact ⟨hwf, hall, by simpa using hhdr, by simpa using hcsum, packStatus_bit7 .., by simpa using errBits_le e, by simp,
    by simpa using hrange⟩

theorem State.inv_raiseMalformed (h : s.Inv) : s.raiseMalformed.Inv := by
  obtain ⟨hwf, hall, -, hcsum, -, -, -, hrange⟩ := h
  exact ⟨hwf, hall, by simp, by simpa using hcsum, packStatus_bit7 .., by simp, by simp, by simpa using hrange⟩

theorem State.inv_assertReset (s : State) : s.assertReset.Inv :=
  ⟨Memory.wf_nil, .inl rfl, by simp, by simp, by simp, by simp, by simp, by simp⟩

/-- A command keeps the invariant: those that load a header write all of HDR, CSUM and SETCSUM succeed over a segment,
which is written, and an error writes STATUS alone. -/
theorem inv_of_exec {i : Instr} (hs : s.Inv) (h : exec i s = .next t) : t.Inv := by
  have ⟨hwf, _, hwritten, _, _, _, _, hrange⟩ := hs
  rcases exec_next_cases h with ⟨_, _, _, _, -, rfl⟩ | ⟨_, _, _, _, _, -, rfl⟩ | ⟨_, -, hl, rfl⟩ | ⟨_, -, -, rfl⟩ |
    ⟨_, _, _, -, hv, -, rfl⟩ | ⟨_, -, hv, rfl⟩ | ⟨-, -, rfl⟩
  · exact State.inv_succeed (Memory.wf_packHeader hwf ..)
      (Option.isSome_of_eq_some (Memory.readFrom_packHeader ..)) hrange
  · exact State.inv_succeed (Memory.wf_packHeader hwf ..)
      (Option.isSome_of_eq_some (Memory.readFrom_packHeader ..)) hrange
  · exact State.inv_succeed (Memory.wf_loadHeader hwf _)
      (Option.isSome_of_eq_some (Memory.readFrom_loadHeader _ _ hl)) hrange
  · exact State.inv_raiseMalformed hs
  · exact State.inv_succeed hwf (hwritten hv) (fun _ => ocsum_checksumBuffer_ne_FFFF _ _ _)
  · exact State.inv_succeed (Memory.wf_write16 hwf (by decide) _)
      (Memory.readFrom_write16_isSome (hwritten hv) ..) hrange
  · exact State.inv_raiseError hs .noSegment

theorem inv_of_runEvent {e : Event} (hs : s.Inv) (h : runEvent e s = .next t) : t.Inv := by
  cases e with
  | cmd pkt =>
    rcases runPacket_next_cases h with ⟨i, -, hi⟩ | ⟨-, rfl⟩
    · exact inv_of_exec hs hi
    · exact State.inv_raiseError hs .illegalCommand
  | reset => exact Host.Outcome.next.inj h ▸ State.inv_assertReset s
  | read p => obtain ⟨v, -, rfl⟩ := runRead_next h; exact hs

end Inv

/-- Settles O45: a step takes the oldest delivery, where there is one, and the invariant does not speak of the inbox. -/
theorem stepKeepsInv : Obligations.StepKeepsInv := by
  intro s t hs h
  cases hinbox : s.inbox with
  | nil => exact Host.Outcome.next.inj ((step_of_inbox_nil hinbox).symm.trans h) ▸ hs
  | cons e rest =>
    have hrest : State.Inv { s with inbox := rest } := hs
    exact inv_of_runEvent hrest ((step_of_inbox_cons hinbox).symm.trans h)

end Sys2Proof.Machine
end

section
/-! PROOFS. The one's-complement primitive (41_checksum.md sections 1 and 4): `ocsum` as the complement of the folded sum
of words, how often the fold turns, and its closed form. -/

namespace Sys2Proof.Machine

/-! ## The sum of a buffer's words -/

/-- `wordSum` as a sum over word positions; the last byte of an odd-length buffer is a high byte
(41_checksum.md R120). -/
theorem wordSum_eq_sum (bytes : List Byte) :
    wordSum bytes = (∑ k ∈ Finset.range (bytes.length / 2), wordAt bytes k) +
      (if bytes.length % 2 = 1 then (bytes.getD (bytes.length - 1) 0).toNat * 256 else 0) := by
  induction bytes using wordSum.induct with
  | case1 => rfl
  | case2 b => simp [wordSum]
  | case3 a b rest ih =>
    have hlen : (a :: b :: rest).length = rest.length + 2 := rfl
    have hfirst : wordAt (a :: b :: rest) 0 = (be16 a b).toNat := (toNat_be16 a b).symm
    have hlater (k : Nat) : wordAt (a :: b :: rest) (k + 1) = wordAt rest k := by
      rw [Nat.add_comm]
      exact wordAt_append_right (u := [a, b]) rfl rest k
    have hlast (h : rest.length % 2 = 1) :
        (a :: b :: rest).getD (rest.length + 2 - 1) 0 = rest.getD (rest.length - 1) 0 := by
      rw [show rest.length + 2 - 1 = rest.length - 1 + 2 by omega, List.getD_cons_succ, List.getD_cons_succ]
    rw [wordSum, ih, hlen, Nat.add_div_right _ two_pos, Finset.sum_range_succ', hfirst, Nat.add_mod_right]
    simp only [hlater]
    split_ifs with h
    · rw [hlast h]
      omega
    · omega

/-- Two buffers with the same word sum have the same checksum. -/
theorem ocsum_congr {u v : List Byte} (h : wordSum u = wordSum v) : ocsum u = ocsum v := by
  rw [ocsum, ocsum, h]

/-- The sum of a buffer given as pairs of bytes. -/
theorem wordSum_pairs (words : List (Byte × Byte)) :
    wordSum (words.flatMap (fun w => [w.1, w.2])) = (words.map (fun w => (be16 w.1 w.2).toNat)).sum := by
  induction words with
  | nil => rfl
  | cons w words ih => simp [wordSum, ih]

theorem length_pairs_even (words : List (Byte × Byte)) :
    (words.flatMap (fun w => [w.1, w.2])).length % 2 = 0 := by
  simp

/-! ## The turns of the fold -/

/-- A turn of the fold is the rule's bit operations (41_checksum.md R120). -/
theorem foldOnce_eq_bits (sum : Nat) : foldOnce sum = (sum &&& 0xFFFF) + (sum >>> 16) := by
  rw [foldOnce, Nat.shiftRight_eq_div_pow, show 0xFFFF = 2 ^ 16 - 1 from rfl, Nat.and_two_pow_sub_one_eq_mod]

/-- With fuel enough, the loop turns exactly as long as the sum exceeds 0xFFFF. -/
theorem exists_turns_of_foldLoop {fuel sum : Nat} (h : sum ≤ fuel) :
    ∃ turns, (∀ j, j < turns → 0xFFFF < foldOnce^[j] sum) ∧ foldOnce^[turns] sum ≤ 0xFFFF ∧
      foldLoop fuel sum = foldOnce^[turns] sum := by
  induction fuel generalizing sum with
  | zero => exact ⟨0, nofun, h.trans (by decide), rfl⟩
  | succ fuel ih =>
    by_cases hbig : 65535 < sum
    · have hlt := foldOnce_lt hbig
      obtain ⟨turns, hbefore, hend, hloop⟩ := ih (sum := foldOnce sum) (by omega)
      refine ⟨turns + 1, fun j hj => ?_, hend, by rw [foldLoop, if_pos hbig, hloop, Function.iterate_succ_apply]⟩
      cases j with
      | zero => exact hbig
      | succ j => exact hbefore j (by omega)
    · exact ⟨0, nofun, Nat.not_lt.1 hbig, by rw [foldLoop, if_neg hbig]; rfl⟩

/-- Settles O22: the loop run with its sum as fuel stops exactly where the rule's loop does. -/
theorem ocsumIsTheFoldedWordSum : Obligations.OcsumIsTheFoldedWordSum := by
  intro bytes sum after
  have hsum : sum = wordSum bytes := (wordSum_eq_sum bytes).symm
  have hafter (n : Nat) : after n = foldOnce^[n] (wordSum bytes) := by
    rw [← hsum, show foldOnce = fun x => (x &&& 0xFFFF) + (x >>> 16) from funext foldOnce_eq_bits]
  obtain ⟨turns, hbefore, hend, hloop⟩ := exists_turns_of_foldLoop (le_refl (wordSum bytes))
  refine ⟨turns, fun j hj => hafter j ▸ hbefore j hj, hafter turns ▸ hend, ?_⟩
  rw [toNat_ocsum, carryFold, hloop, hafter]

theorem length_checksumBuffer {header : List Byte} (h : header.length = 20) (srcip dstip : Word) :
    (checksumBuffer srcip dstip header).length = 32 := by
  rw [checksumBuffer, List.length_append, length_pseudoHeader, h]

/-- Settles O23: 16 words of at most 0xFFFF, and the turn's arithmetic; the three vectors are evaluated. -/
theorem csumFoldsAtMostTwice : Obligations.CsumFoldsAtMostTwice := by
  refine ⟨fun _ h => foldOnce_lt h, fun srcip dstip header h => ?buffer, fun sum h => ?turns, by decide, by decide,
    by decide, by decide, by decide, by decide⟩
  case buffer =>
    have hlen := length_checksumBuffer h srcip dstip
    have hle := wordSum_le (checksumBuffer srcip dstip header) (by rw [hlen])
    rwa [hlen] at hle
  case turns =>
    simp only [foldOnce]
    omega

/-! ## The closed form -/

/-- Folding a part of the sum early changes nothing: it keeps the sum modulo 0xFFFF, and keeps it positive
(41_checksum.md R128). -/
theorem carryFold_add (a b : Nat) : carryFold (a + b) = carryFold (carryFold a + b) := by
  rcases Nat.eq_zero_or_pos a with rfl | ha
  · rw [carryFold_zero]
  · rw [carryFold_pos ha, carryFold_pos (by omega), carryFold_pos (by omega)]
    omega

/-- Settles O24: the fold by its closed form, and the order of the words by their sum. -/
theorem foldHasItsClosedForm : Obligations.FoldHasItsClosedForm := by
  refine ⟨carryFold_zero, fun _ h => carryFold_pos h, carryFold_add, toNat_ocsum, fun words words' tail h => ?words,
    fun p u v q hp hu hv => ?parts⟩
  case words =>
    apply ocsum_congr
    rw [wordSum_append _ _ (length_pairs_even words), wordSum_append _ _ (length_pairs_even words'), wordSum_pairs,
      wordSum_pairs, (h.map _).sum_eq]
  case parts =>
    have hsum {x y : List Byte} (hx : x.length % 2 = 0) (hy : y.length % 2 = 0) :
        wordSum (p ++ x ++ y ++ q) = wordSum p + wordSum x + wordSum y + wordSum q := by
      rw [wordSum_append _ _ (by simp; omega), wordSum_append _ _ (by simp; omega), wordSum_append _ _ hp]
    apply ocsum_congr
    rw [hsum hu hv, hsum hv hu, Nat.add_right_comm (wordSum p)]

end Sys2Proof.Machine
end

section
/-! PROOFS. The command CSUM (41_checksum.md sections 2 to 4): its result and frame, that the result is a function of
HDR and the two addresses, symmetric in them, and that an inserted checksum verifies. -/

namespace Sys2Proof.Machine

/-! ## One CSUM -/

/-- The complete result of CSUM over a segment, and what it leaves unchanged (41_checksum.md R122, R123). -/
theorem exec_csum_writes {s : State} {header : List Byte} (hv : s.hdrValid = true)
    (hr : s.hdr.readFrom 0 20 = some header) (srcip dstip : Word) :
    ∃ t, exec (.csum srcip dstip) s = .next t ∧
      t.csum = ocsum (bigEndian 4 srcip.toNat ++ bigEndian 4 dstip.toNat ++ [0x00, 0x06, 0x00, 0x14] ++ header) ∧
      t.err = 0 ∧ t.csumValid = true ∧ t.hdrValid = s.hdrValid ∧ t.errSeen = s.errSeen ∧ t.hdr = s.hdr ∧
      s.hostSame t := by
  refine ⟨_, exec_csum_valid hv hr srcip dstip, ?_, by simp [hv, State.hostSame]⟩
  rw [← pseudoHeader_eq_bigEndian]
  rfl

/-- Settles O26, by whether there is a segment; the example's buffer is evaluated. -/
theorem csumWritesTheChecksum : Obligations.CsumWritesTheChecksum := by
  refine ⟨fun srcip dstip s header hv hr => exec_csum_writes hv hr srcip dstip, fun srcip dstip s hv => ?noSegment,
    fun pkt s hop hl => ?wrongLength, fun s hv hr => ?sample⟩
  case noSegment => exact ⟨_, exec_csum_invalid hv srcip dstip, State.failsAs_raiseError s .noSegment⟩
  case wrongLength => exact failsAs_of_not_packetWf (not_packetWf_of_length_ne (by decide) hop hl) s
  case sample =>
    obtain ⟨t, ht, hc, -⟩ := exec_csum_writes hv hr 0xC0A8D703 0x8EFABDCE
    exact ⟨t, ht, hc.trans (by decide)⟩

/-- Settles O27: the buffer's sum is positive, as the pseudo-header's words are; V7's buffer is evaluated. -/
theorem csumResultIsNeverFFFF : Obligations.CsumResultIsNeverFFFF := by
  refine ⟨fun srcip dstip s t hv h => ?range, fun s hv hr => ?zero⟩
  case range =>
    rcases exec_csum_next h with ⟨-, header, -, rfl⟩ | ⟨hinvalid, -⟩
    · exact ocsum_checksumBuffer_ne_FFFF srcip dstip header
    · rw [hv] at hinvalid
      contradiction
  case zero =>
    obtain ⟨t, ht, hc, -⟩ := exec_csum_writes hv hr 0xC0A8D703 0x8EFABDCE
    exact ⟨t, ht, hc.trans (by decide)⟩

/-- CSUM stops where HDR_VALID is 1 and a byte of HDR has no value (log entry 11). -/
theorem exec_csum_unwritten {s : State} (hv : s.hdrValid = true) (hr : s.hdr.readFrom 0 20 = none)
    (srcip dstip : Word) : exec (.csum srcip dstip) s = .fault .hdrHasNoValue := by
  simp [exec, execCsum, hv, hr]

/-- Swapping the addresses swaps words of the buffer (41_checksum.md R128). -/
theorem ocsum_checksumBuffer_comm (srcip dstip : Word) (header : List Byte) :
    ocsum (checksumBuffer srcip dstip header) = ocsum (checksumBuffer dstip srcip header) := by
  apply ocsum_congr
  rw [wordSum_checksumBuffer, wordSum_checksumBuffer, Nat.add_comm ((hiHalf srcip).toNat + _)]

/-- Settles O31, by CSUM's three ends: only the one over a segment uses the addresses, and its checksum is symmetric. -/
theorem csumIsSymmetricInItsAddresses : Obligations.CsumIsSymmetricInItsAddresses := by
  intro srcip dstip s
  cases hv : s.hdrValid with
  | false => rw [exec_csum_invalid hv, exec_csum_invalid hv]
  | true =>
    cases hr : s.hdr.readFrom 0 20 with
    | none => rw [exec_csum_unwritten hv hr, exec_csum_unwritten hv hr]
    | some header => rw [exec_csum_valid hv hr, exec_csum_valid hv hr, ocsum_checksumBuffer_comm]

/-! ## HDR by its bytes -/

/-- A run of bytes read is determined by the bytes. -/
theorem Memory.readFrom_congr {m m' : Memory} {o n : Nat} {bs : List Byte}
    (h : ∀ i, i < n → m.read (o + i) = m'.read (o + i)) (hr : m.readFrom o n = some bs) :
    m'.readFrom o n = some bs := by
  rw [Memory.readFrom_eq_some] at hr ⊢
  obtain ⟨hlen, hbytes⟩ := hr
  exact ⟨hlen, fun i hi => (h i hi).symm.trans (hbytes i hi)⟩

/-- Settles O30: both states read the same header, and CSUM's result is that header's checksum. -/
theorem csumDependsOnHdrAndAddressesAlone : Obligations.CsumDependsOnHdrAndAddressesAlone := by
  intro srcip dstip s s' ⟨_, _, hwritten, _⟩ _ hv hv' hsame
  obtain ⟨header, hr⟩ := Option.isSome_iff_exists.1 (hwritten hv)
  have hr' : s'.hdr.readFrom 0 20 = some header :=
    Memory.readFrom_congr (fun i hi => by simpa using hsame ⟨i, hi⟩) hr
  obtain ⟨t, ht, -, -, -, hc, -⟩ := exec_csum_of_segment hv hr srcip dstip
  obtain ⟨t', ht', -, -, -, hc', -⟩ := exec_csum_of_segment hv' hr' srcip dstip
  exact ⟨t, t', ht, ht', hc.trans hc'.symm⟩

/-- In canonical form no byte from offset 20 on has a value (10_state.md R20). -/
theorem Memory.read_eq_none_of_le {m : Memory} (hm : m.wf) {a : Nat} (ha : 20 ≤ a) : m.read a = none := by
  obtain ⟨-, hbound⟩ := hm
  induction m with
  | nil => rfl
  | cons c rest ih =>
    have hc : c.1 < 20 := hbound c (by simp)
    rw [Memory.read, if_neg (by omega), ih fun d hd => hbound d (by simp [hd])]

/-- Two headers in canonical form with the same 20 bytes are the same data. -/
theorem Memory.eq_of_readFrom {m m' : Memory} {header : List Byte} (hm : m.wf) (hm' : m'.wf)
    (h : m.readFrom 0 20 = some header) (h' : m'.readFrom 0 20 = some header) : m = m' := by
  refine Memory.eq_of_reads hm hm' fun a => ?_
  by_cases ha : a < 20
  · exact (Memory.read_of_readFrom h ⟨a, ha⟩).trans (Memory.read_of_readFrom h' ⟨a, ha⟩).symm
  · rw [Memory.read_eq_none_of_le hm (Nat.not_lt.1 ha), Memory.read_eq_none_of_le hm' (Nat.not_lt.1 ha)]

/-! ## The checksum inserted -/

/-- The CHECKSUM field is the header's word 8 (30_encoding.md R60). -/
theorem wordAt_checksum_field {pre : List Byte} (hpre : pre.length = 16) (x : Half) (post : List Byte) :
    wordAt (pre ++ put16 x ++ post) 8 = x.toNat := by
  rw [List.append_assoc]
  exact (wordAt_append_right (n := 8) hpre (put16 x ++ post) 0).trans (toNat_hiByte_loByte x)

/-- A segment whose CHECKSUM port shows 0 is a header with a zero CHECKSUM field, bytes 16 and 17 (40_codec.md R113). -/
theorem exists_zero_checksum_segment {s : State} (hs : s.Inv) (hv : s.hdrValid = true)
    (hz : readPort .checksum s = some 0) :
    ∃ pre post, pre.length = 16 ∧ s.hdr.readFrom 0 20 = some (pre ++ put16 0 ++ post) := by
  obtain ⟨_, _, hwritten, _⟩ := hs
  obtain ⟨header, hr⟩ := Option.isSome_iff_exists.1 (hwritten hv)
  obtain ⟨pre, x, post, rfl, hpre⟩ := exists_checksum_field ((Memory.readFrom_eq_some ..).1 hr).1
  obtain ⟨-, hport, -⟩ := tail_ports_of_reads hv (Memory.read_of_readFrom hr)
  have hx : x.toNat = 0 := (wordAt_checksum_field hpre x post).symm.trans (Option.some.inj (hport.symm.trans hz))
  obtain rfl : x = 0 := BitVec.eq_of_toNat_eq hx
  exact ⟨pre, post, hpre, hr⟩

/-- CSUM over a segment with a zero CHECKSUM field, then SETCSUM of its result: both complete, and HDR then has that
result in the field (41_checksum.md section 3). -/
theorem exec_csum_setcsum_of_segment {s : State} {pre post : List Byte} (hv : s.hdrValid = true)
    (hpre : pre.length = 16) (hr : s.hdr.readFrom 0 20 = some (pre ++ put16 0 ++ post)) (srcip dstip : Word) :
    ∃ t1 t2, exec (.csum srcip dstip) s = .next t1 ∧ exec (.setcsum t1.csum) t1 = .next t2 ∧
      t1.csum = ocsum (checksumBuffer srcip dstip (pre ++ put16 0 ++ post)) ∧ t2.hdrValid = true ∧
      t2.hdr.readFrom 0 20 = some (pre ++ put16 t1.csum ++ post) := by
  obtain ⟨t1, h1, hv1, hr1, -, hc1, -⟩ := exec_csum_of_segment hv hr srcip dstip
  obtain ⟨t2, h2, hv2, hr2, -⟩ := exec_setcsum_of_segment hv1 hpre hr1 t1.csum
  exact ⟨t1, t2, h1, h2, hc1, hv2, hr2⟩

/-- Settles O28: the second CSUM is over the buffer with the first one's result inserted. -/
theorem insertedChecksumVerifies : Obligations.InsertedChecksumVerifies := by
  intro srcip dstip s hs hv hz
  obtain ⟨pre, post, hpre, hr⟩ := exists_zero_checksum_segment hs hv hz
  obtain ⟨t1, t2, h1, h2, hc1, hv2, hr2⟩ := exec_csum_setcsum_of_segment hv hpre hr srcip dstip
  obtain ⟨t3, h3, -, -, -, hc3, herr, -⟩ := exec_csum_of_segment hv2 hr2 srcip dstip
  have hzero : t3.csum = 0 := by rw [hc3, hc1, ocsum_checksum_inserted hpre]
  exact ⟨t1, t2, t3, h1, h2, h3, hzero, herr⟩

/-- Settles O29: the two SETCSUMs leave HDR's 20 bytes as they were, and the canonical form, which every command keeps,
makes that the same data. -/
theorem checksumInsertedAndZeroedComesBack : Obligations.ChecksumInsertedAndZeroedComesBack := by
  intro srcip dstip s hs hv hz
  obtain ⟨pre, post, hpre, hr⟩ := exists_zero_checksum_segment hs hv hz
  obtain ⟨t1, t2, h1, h2, hc1, hv2, hr2⟩ := exec_csum_setcsum_of_segment hv hpre hr srcip dstip
  obtain ⟨t3, h3, hv3, hr3, -⟩ := exec_setcsum_of_segment hv2 hpre hr2 0
  obtain ⟨t4, h4, -, -, -, hc4, -⟩ := exec_csum_of_segment hv3 hr3 srcip dstip
  obtain ⟨hwf3, -⟩ := inv_of_exec (inv_of_exec (inv_of_exec hs h1) h2) h3
  obtain ⟨hwf, -⟩ := hs
  exact ⟨t1, t2, t3, t4, h1, h2, h3, Memory.eq_of_readFrom hwf3 hwf hr3 hr, h4, hc4.trans hc1.symm⟩

end Sys2Proof.Machine
end

section
/-! PROOFS. The error outcomes (60_exceptions.md R141 to R144): which packets raise which code, and what such a packet
leaves. -/

namespace Sys2Proof.Machine

/-! ## ILLEGAL_COMMAND -/

/-- R78's check knows no opcode but 0x01 to 0x05. -/
theorem not_packetWf_of_opcode {pkt : List Byte} {op : Byte} (h : pkt.head? = some op)
    (hop : op.toNat = 0 ∨ 5 < op.toNat) : ¬PacketWf pkt := by
  rw [List.head?_eq_getElem?] at h
  rintro ⟨-, ⟨h', -⟩ | ⟨h', -⟩ | ⟨h', -⟩ | ⟨h', -⟩ | ⟨h', -⟩⟩ <;>
    obtain rfl := Option.some.inj (h.symm.trans h') <;> simp at hop

/-- Settles O6: none of the four kinds passes R78's check. -/
theorem illegalPacketsRaiseIllegalCommand : Obligations.IllegalPacketsRaiseIllegalCommand := by
  intro pkt s h
  refine failsAs_of_not_packetWf ?_ s
  rcases h with rfl | ⟨op, hop, hrange⟩ | ⟨hop, hl⟩ | ⟨hop, hl⟩ | ⟨hop, hl⟩ | ⟨hop, hl⟩ | ⟨hop, hl⟩
  · simp [PacketWf]
  · exact not_packetWf_of_opcode hop hrange
  · exact not_packetWf_of_length_ne (by decide) hop hl
  · exact not_packetWf_of_length_ne (by decide) hop hl
  · exact not_packetWf_of_length_ne (by decide) hop hl
  · exact not_packetWf_of_length_ne (by decide) hop hl
  · obtain ⟨data, rfl⟩ := List.head?_eq_some_iff.1 hop
    exact not_packetWf_of_data_too_long (Nat.lt_of_succ_lt_succ hl)

/-! ## What ends with an error -/

/-- A well-formed command that ends with an error is a DECODE of fewer than 20 bytes, or a CSUM or SETCSUM without a
segment (60_exceptions.md R142, R144). -/
theorem exec_next_of_err_ne_zero {i : Instr} {s t : State} (h : exec i s = .next t) (he : t.err ≠ 0) :
    (∃ data, i = .decode data ∧ data.length < 20 ∧ t = s.raiseMalformed) ∨
    (s.hdrValid = false ∧ ((∃ srcip dstip, i = .csum srcip dstip) ∨ ∃ value, i = .setcsum value) ∧
      t = s.raiseError .noSegment) := by
  rcases exec_next_cases h with ⟨_, _, _, _, -, rfl⟩ | ⟨_, _, _, _, _, -, rfl⟩ | ⟨_, -, -, rfl⟩ | hshort |
    ⟨_, _, _, -, -, -, rfl⟩ | ⟨_, -, -, rfl⟩ | hnoSegment
  · exact absurd (State.err_succeed ..) he
  · exact absurd (State.err_succeed ..) he
  · exact absurd (State.err_succeed ..) he
  · exact .inl hshort
  · exact absurd (State.err_succeed ..) he
  · exact absurd (State.err_succeed ..) he
  · exact .inr hnoSegment

/-- The three outcomes of a packet that ends with an error (60_exceptions.md R141, R142, R144). -/
theorem runPacket_next_of_err_ne_zero {pkt : List Byte} {s t : State} (h : runPacket pkt s = .next t)
    (he : t.err ≠ 0) :
    t = s.raiseMalformed ∨ t = s.raiseError .noSegment ∨ t = s.raiseError .illegalCommand := by
  rcases runPacket_next_cases h with ⟨i, -, hi⟩ | ⟨-, hillegal⟩
  · rcases exec_next_of_err_ne_zero hi he with ⟨_, -, -, hshort⟩ | ⟨-, -, hnoSegment⟩
    · exact .inl hshort
    · exact .inr (.inl hnoSegment)
  · exact .inr (.inr hillegal)

/-- Settles O36: an error outcome writes STATUS alone, and after a short DECODE HDR_VALID is 0. -/
theorem errorsWriteNothingElse : Obligations.ErrorsWriteNothingElse := by
  refine ⟨fun pkt s t h he => ?frame, fun data s hl => ?short⟩
  case frame =>
    rcases runPacket_next_of_err_ne_zero h he with rfl | rfl | rfl
    · simp [State.hostSame]
    · simp [State.hostSame, errBits]
    · simp [State.hostSame, errBits]
  case short =>
    have hv : s.raiseMalformed.hdrValid = false := State.hdrValid_raiseMalformed s
    exact ⟨_, (runPacket_decode_short hl s).2, State.err_raiseMalformed s, State.errSeen_raiseMalformed s, hv, rfl,
      fun p h1 h2 => by simp [readPort_header h1 h2],
      fun srcip dstip => ⟨_, exec_csum_invalid hv srcip dstip, State.err_raiseError ..⟩,
      fun value => ⟨_, exec_setcsum_invalid hv value, State.err_raiseError ..⟩⟩

/-! ## NO_SEGMENT -/

/-- Settles O38: NO_SEGMENT is the one error of code 3, and what makes HDR_VALID 1 is a command that loads a header. -/
theorem noSegmentIsRaisedWithoutASegment : Obligations.NoSegmentIsRaisedWithoutASegment := by
  obtain ⟨hloads, hshort, -, hchanges, -⟩ := hdrValidLifetime
  refine ⟨fun srcip dstip value s hv => ⟨?csum, ?setcsum⟩, fun i s t h he => ?converse, State.hdrValid_assertReset,
    by decide, hshort, hloads, fun e s t h hs ht => ?ends⟩
  case csum => exact ⟨_, exec_csum_invalid hv srcip dstip, State.failsAs_raiseError s .noSegment⟩
  case setcsum => exact ⟨_, exec_setcsum_invalid hv value, State.failsAs_raiseError s .noSegment⟩
  case converse =>
    rcases exec_next_of_err_ne_zero h (by simp [he]) with ⟨_, -, -, rfl⟩ | ⟨hv, hi, -⟩
    · simp at he
    · exact ⟨hv, hi⟩
  case ends =>
    rcases hchanges e s t h (by simp [hs, ht]) with rfl | ⟨pkt, i, rfl, hd, henc | hack | ⟨data, rfl⟩⟩
    · cases h
      simp at ht
    · exact ⟨pkt, i, rfl, hd, .inl henc⟩
    · exact ⟨pkt, i, rfl, hd, .inr (.inl hack)⟩
    · have hexec : exec (.decode data) s = .next t := (runPacket_of_decode_ok hd s).symm.trans h
      rcases exec_decode_next hexec with ⟨hl, -⟩ | ⟨-, rfl⟩
      · exact ⟨pkt, _, rfl, hd, .inr (.inr ⟨data, rfl, hl⟩)⟩
      · simp at ht

end Sys2Proof.Machine
end

section
/-! PROOFS. Stops (92_eei_decisions.md D33): no delivery is refused, and of the deliveries only a read faults in a
state a run reaches. -/

namespace Sys2Proof.Machine

/-- Over a segment that is written, as in every state that meets the invariant, every command has a next state. -/
theorem exists_next_of_exec {s : State} (hs : s.hdrValid = true → s.hdrWritten = true) (i : Instr) :
    ∃ t, exec i s = .next t := by
  cases h : exec i s with
  | next t => exact ⟨t, rfl⟩
  | fault f =>
    obtain ⟨hv, hnone⟩ := exec_fault h
    have hwritten := hs hv
    simp [State.hdrWritten, hnone] at hwritten
  | refused r => exact absurd h (exec_ne_refused i s r)

theorem exists_next_of_runPacket {s : State} (hs : s.hdrValid = true → s.hdrWritten = true) (pkt : List Byte) :
    ∃ t, runPacket pkt s = .next t := by
  rcases runPacket_cases pkt s with ⟨i, -, hr⟩ | ⟨-, hr⟩
  · rw [hr]
    exact exists_next_of_exec hs i
  · exact ⟨_, hr⟩

theorem runEvent_ne_refused (e : Event) (s : State) (r : Refusal) : runEvent e s ≠ .refused r := by
  cases e with
  | cmd pkt =>
    change runPacket pkt s ≠ _
    rcases runPacket_cases pkt s with ⟨i, -, hr⟩ | ⟨-, hr⟩
    · rw [hr]
      exact exec_ne_refused i s r
    · simp [hr]
  | reset => exact nofun
  | read p =>
    change runRead p s ≠ _
    cases hv : readPort p s with
    | none => simp [runRead_of_no_value hv]
    | some v => simp [runRead_of_value hv]

/-- From a state whose segment is written the one fault of a delivery is a read's (40_codec.md R116). -/
theorem runEvent_fault {e : Event} {s : State} {f : Fault} (hs : s.hdrValid = true → s.hdrWritten = true)
    (h : runEvent e s = .fault f) : ∃ p, e = .read p ∧ readPort p s = none ∧ f = .portHasNoValue p := by
  cases e with
  | cmd pkt =>
    obtain ⟨t, ht⟩ := exists_next_of_runPacket hs pkt
    exact nomatch ht.symm.trans h
  | reset => cases h
  | read p =>
    cases hv : readPort p s with
    | none => exact ⟨p, rfl, hv, (Host.Outcome.fault.inj ((runRead_of_no_value hv).symm.trans h)).symm⟩
    | some v => exact nomatch (runRead_of_value hv).symm.trans h

/-- Settles O48, by the kind of the oldest delivery. -/
theorem onlyAReadWithoutValueFaults : Obligations.OnlyAReadWithoutValueFaults := by
  refine ⟨fun pkt s hs => ?packet, fun s f hs h => ?fault, fun s r h => ?refusal⟩
  case packet =>
    obtain ⟨-, -, hwritten, -⟩ := hs
    exact exists_next_of_runPacket hwritten pkt
  case fault =>
    obtain ⟨-, -, hwritten, -⟩ := hs
    cases hinbox : s.inbox with
    | nil => exact nomatch (step_of_inbox_nil hinbox).symm.trans h
    | cons e rest =>
      obtain ⟨p, rfl, hv, hf⟩ := runEvent_fault (s := { s with inbox := rest }) hwritten
        ((step_of_inbox_cons hinbox).symm.trans h)
      exact ⟨p, rest, rfl, (readPort_with_inbox p s rest).symm.trans hv, hf⟩
  case refusal =>
    cases hinbox : s.inbox with
    | nil => exact nomatch (step_of_inbox_nil hinbox).symm.trans h
    | cons e rest => exact runEvent_ne_refused e _ r ((step_of_inbox_cons hinbox).symm.trans h)

end Sys2Proof.Machine
end

section
/-! PROOFS. The invariant of a system (60_exceptions.md R152): power-on, a delivery and a step each keep
every unit's. -/

namespace Sys2Proof.Machine

theorem System.inv_reset : System.reset.Inv :=
  ⟨List.length_replicate, fun _ hs => List.eq_of_mem_replicate hs ▸ State.inv_assertReset State.reset⟩

/-- A delivery only lengthens one unit's inbox, of which the invariant does not speak. -/
theorem System.inv_deliver {y : System} (hy : y.Inv) (k : Nat) (e : Event) : (y.deliver k e).Inv := by
  obtain ⟨hlen, hunits⟩ := hy
  refine ⟨(List.length_modify ..).trans hlen, fun s hs => ?_⟩
  obtain ⟨j, hj⟩ := List.mem_iff_getElem?.1 hs
  rw [System.deliver, List.getElem?_modify] at hj
  obtain ⟨u, hu, rfl⟩ := Option.map_eq_some_iff.1 hj
  have hinv : u.Inv := hunits u (List.mem_of_getElem? hu)
  split_ifs
  · exact hinv
  · exact hinv

/-- A unit's step keeps that unit's invariant and leaves the other units as they are. -/
theorem System.inv_stepUnit {y z : System} {k : Nat} (hy : y.Inv) (h : y.stepUnit k = .next z) : z.Inv := by
  rcases System.stepUnit_next_cases h with ⟨-, rfl⟩ | ⟨s, t, hk, hs, rfl⟩
  · exact hy
  · obtain ⟨hlen, hunits⟩ := hy
    refine ⟨List.length_set.trans hlen, fun u hu => ?_⟩
    rcases List.mem_or_eq_of_mem_set hu with hu | rfl
    · exact hunits u hu
    · exact stepKeepsInv s u (hunits s (List.mem_of_getElem? hk)) hs

/-- Settles O52. -/
theorem systemsKeepEveryUnitsInv : Obligations.SystemsKeepEveryUnitsInv :=
  ⟨System.inv_reset, fun _ k e hy => System.inv_deliver hy k e, fun _ _ _ hy h => System.inv_stepUnit hy h⟩

end Sys2Proof.Machine
end

section
/-! PROOFS. Reset (70_reset_and_hazards.md R160, R161): what it leaves, which depends on nothing but HOST's side. -/

namespace Sys2Proof.Machine

/-- A unit just reset shows STATUS 0x00, and neither HDR nor any other port has a value (R160, 40_codec.md R116). -/
theorem State.assertReset_has_no_values (s : State) :
    readPort .statusOut s.assertReset = some 0x00 ∧ (∀ o, s.assertReset.hdr.read o = none) ∧
      ∀ p, p ≠ .statusOut → readPort p s.assertReset = none := by
  refine ⟨?status, fun _ => rfl, fun p hp => ?ports⟩
  case status => simp [readPort, State.readStatus, packStatus]
  case ports =>
    by_cases hcsum : p = .csumOut
    · subst hcsum
      simp [readPort_csumOut]
    · simp [readPort_header hcsum hp]

/-- A reset keeps nothing but HOST's side (R161; log entry 6). -/
theorem State.assertReset_congr {s s' : State} (h : s.hostSame s') : s'.assertReset = s.assertReset := by
  obtain ⟨hinbox, hreturned⟩ := h
  simp only [State.assertReset, hinbox, hreturned]

/-- The power-on state is itself just reset. -/
theorem State.assertReset_reset : State.reset.assertReset = State.reset := rfl

/-- Settles O42: the first state is one that a reset leaves. -/
theorem resetLeavesNoValues : Obligations.ResetLeavesNoValues := fun s =>
  ⟨⟨_, rfl, State.assertReset_has_no_values s⟩, State.assertReset_has_no_values State.reset⟩

/-- Settles O43: a reset is a function of HOST's side alone, which it leaves. -/
theorem resetKeepsNothingAndRepeats : Obligations.ResetKeepsNothingAndRepeats := by
  refine ⟨fun s => ⟨_, rfl⟩, fun s s' h => ?keepsNothing, fun s h => ?powerOn, fun s => rfl⟩
  case keepsNothing => exact congrArg Host.Outcome.next (State.assertReset_congr h)
  case powerOn => exact congrArg Host.Outcome.next ((State.assertReset_congr h).symm.trans State.assertReset_reset)

/-- Settles O44: the first state is one that a reset leaves, and each of those meets the invariant. -/
theorem invHoldsAtReset : Obligations.InvHoldsAtReset :=
  State.inv_assertReset State.reset

end Sys2Proof.Machine
end

section
/-! PROOFS. The transmit sequence (70_reset_and_hazards.md R164): each of its parts over a segment, with what HOST has read
so far. -/

namespace Sys2Proof.Machine

/-! ## Reads in a row -/

/-- Reads of ports that all have a value complete and record their values in order; one read leaves the value of the next
port as it was (10_state.md R27). -/
theorem runEvents_reads {α : Type} {port : α → Port} {value : α → Nat} {ks : List α} {s : State}
    (h : ∀ k ∈ ks, readPort (port k) s = some (value k)) :
    runEvents (ks.map fun k => .read (port k)) s =
      .next { s with returned := s.returned ++ ks.map fun k => (port k, value k) } := by
  induction ks generalizing s with
  | nil => simp [runEvents]
  | cons k ks ih =>
    have hfirst : runEvent (.read (port k)) s = .next { s with returned := s.returned ++ [(port k, value k)] } :=
      runRead_of_value (h k List.mem_cons_self)
    have hrest : ∀ j ∈ ks, readPort (port j) { s with returned := s.returned ++ [(port k, value k)] } = some (value j) :=
      fun j hj => (readPort_with_returned ..).trans (h j (List.mem_cons_of_mem k hj))
    simp only [List.map_cons, runEvents, hfirst, andThen_next, ih hrest, List.append_assoc, List.singleton_append]

/-- The reads of RAW(0) to RAW(19) over a segment return its 20 bytes (40_codec.md R115). -/
theorem runEvents_readRawAll {s : State} {header : List Byte} (hv : s.hdrValid = true)
    (hr : s.hdr.readFrom 0 20 = some header) :
    runEvents readRawAll s = .next { s with
      returned := s.returned ++ (List.finRange 20).map fun k => (Port.raw k, (header.getD k.val 0).toNat) } :=
  runEvents_reads fun k _ => readPort_raw_of_read hv (Memory.read_of_readFrom hr k)

/-! ## The checksum put in place -/

/-- Writing the CHECKSUM field of a header changes its bytes 16 and 17 (30_encoding.md R60). -/
theorem Memory.readFrom_write_checksum {m : Memory} {header : List Byte} (h : m.readFrom 0 20 = some header) (v : Half) :
    (m.write16 16 v).readFrom 0 20 = some (header.take 16 ++ put16 v ++ header.drop 18) := by
  obtain ⟨pre, x, post, rfl, hpre⟩ := exists_checksum_field ((Memory.readFrom_eq_some ..).1 h).1
  have hwrite := Memory.readFrom_write16 h v
  have htake : (pre ++ put16 x ++ post).take 16 = pre := by simp [hpre]
  have hdrop : (pre ++ put16 x ++ post).drop 18 = post := List.drop_left' (by simp [hpre])
  rw [hpre] at hwrite
  rw [htake, hdrop, hwrite]

/-- The read of a valid CSUM and its SETCSUM over a segment: HOST has read the checksum, and it stands in the CHECKSUM field
(R164 steps 3 and 4). -/
theorem insertCsumOut_of_segment {s : State} {header : List Byte} (hv : s.hdrValid = true) (hc : s.csumValid = true)
    (hr : s.hdr.readFrom 0 20 = some header) :
    ∃ t, insertCsumOut s = .next t ∧ t.hdrValid = true ∧
      t.hdr.readFrom 0 20 = some (header.take 16 ++ put16 s.csum ++ header.drop 18) ∧
      t.returned = s.returned ++ [(.csumOut, s.csum.toNat)] ∧ t.inbox = s.inbox ∧ t.err = 0 ∧ t.errSeen = s.errSeen := by
  have hset := exec_setcsum_valid (s := { s with returned := s.returned ++ [(.csumOut, s.csum.toNat)] }) hv s.csum
  refine ⟨_, (insertCsumOut_of_csumValid hc).trans hset, State.hdrValid_succeed ..,
    Memory.readFrom_write_checksum hr s.csum, rfl, rfl, State.err_succeed .., ?seen⟩
  case seen => simp

/-! ## The whole sequence -/

/-- From a command that leaves a header on, the transmit sequence returns that header's checksum and its bytes with the
checksum in place, and records no error. -/
theorem transmit_of_exec {i : Instr} {s s1 : State} {header : List Byte} (hwf : i.wf = true) (h1 : exec i s = .next s1)
    (hv1 : s1.hdrValid = true) (hr1 : s1.hdr.readFrom 0 20 = some header) (srcip dstip : Word) {c : Half}
    (hc : ocsum (checksumBuffer srcip dstip header) = c) :
    ∃ t, transmit i srcip dstip s = .next t ∧
      t.returned = s.returned ++ [(.csumOut, c.toNat)] ++ (List.finRange 20).map (fun k =>
        (Port.raw k, ((header.take 16 ++ put16 c ++ header.drop 18).getD k.val 0).toNat)) ∧
      t.inbox = s.inbox ∧ t.err = 0 ∧ t.errSeen = s1.errSeen := by
  obtain ⟨s2, h2, hv2, hr2, hcv2, hc2, -, hseen2⟩ := exec_csum_of_segment hv1 hr1 srcip dstip
  rw [hc] at hc2
  obtain ⟨s3, h3, hv3, hr3, hret3, hinbox3, herr3, hseen3⟩ := insertCsumOut_of_segment hv2 hcv2 hr2
  obtain ⟨hinbox1, hret1⟩ := (commandEnds_of_exec h1).hostSame
  obtain ⟨hinbox2, hret2⟩ := (commandEnds_of_exec h2).hostSame
  have hrun : transmit i srcip dstip s = runEvents readRawAll s3 := by
    rw [transmit, issue_of_wf hwf, h1, andThen_next, issue_of_wf rfl, h2, andThen_next, h3, andThen_next]
  refine ⟨_, hrun.trans (runEvents_readRawAll hv3 hr3), ?returned, ?inbox, herr3, hseen3.trans hseen2⟩
  case returned => rw [hret3, hret2, hret1, hc2]
  case inbox => exact hinbox3.trans (hinbox2.trans hinbox1)

/-- Settles O54: both encoders leave their header's image, which the transmit sequence finishes. -/
theorem transmitReturnsTheFinishedSegment : Obligations.TransmitReturnsTheFinishedSegment := by
  intro sport dport seq acknum srcip dstip flags i image s hi c
  have hencoded : ∃ s1, exec i s = .next s1 ∧ s1.hdr.readFrom 0 20 = some image ∧ s1.hdrValid = true ∧
      s1.errSeen = s.errSeen ∧ i.wf = true := by
    rcases hi with ⟨rfl, rfl⟩ | ⟨rfl, rfl⟩
    · obtain ⟨s1, h1, hr, -, -, hv, hseen, -⟩ := exec_encodeAck_writes sport dport seq 0 flags s
      exact ⟨s1, (encodeAckWithZeroIsEncode ..).symm.trans h1, hr, hv, hseen, rfl⟩
    · obtain ⟨s1, h1, hr, -, -, hv, hseen, -⟩ := exec_encodeAck_writes sport dport seq acknum flags s
      exact ⟨s1, h1, hr, hv, hseen, rfl⟩
  obtain ⟨s1, h1, hr, hv, hseen, hwf⟩ := hencoded
  have hfinished := transmit_of_exec hwf h1 hv hr srcip dstip rfl
  simpa only [put16_eq_bigEndian, hseen] using hfinished

end Sys2Proof.Machine
end
